-- ==== Sys2Proof/Word.lean ====
section
/-! DEFINITION. The word types of KBC (spec/00_scope.md R5, R10, R13). The internal base `β` of R5 is written `2 ^ 64` throughout. -/

namespace Sys2Proof

/-- A limb: "one fixed-width (64-bit) word of a multi-word integer's magnitude" (R5). -/
abbrev Limb := BitVec 64

/-- A scalar of the port: `arg` of a command, `res` of a response (R13). -/
abbrev Scalar := BitVec 64

/-- A command word (R13, R71). -/
abbrev CmdWord := BitVec 32

end Sys2Proof
end

