-- ==== Sys2Proof/Syntax.lean ====
section
/-! DEFINITION. The commands of KBC as syntax: one constructor per row of spec/opcode_table.json (30_encoding.md R74). -/

namespace Sys2Proof

/-- A BigInt register number, 0 to 15 (R6, R73: "all sixteen values are valid register numbers"). -/
abbrev Reg := Fin 16

/-- The 26 commands of R74, with the register fields of their formats (R72) in the operand order of R79. The scalar operand `arg` is
no part of the command word (R73) and no field here. -/
inductive Instr where
  | nop
  | clr (rd : Reg)
  | copy (rd rs1 : Reg)
  | ldi (rd : Reg)
  | pushl (rd : Reg)
  | neg (rd rs1 : Reg)
  | rdl (rs1 : Reg)
  | rdlen (rs1 : Reg)
  | rdsgn (rs1 : Reg)
  | rdst
  | clrf
  | bitlen (rs1 : Reg)
  | add (rd rs1 rs2 : Reg)
  | sub (rd rs1 rs2 : Reg)
  | cmp (rs1 rs2 : Reg)
  | shr (rd rs1 : Reg)
  | div3 (rd rs1 : Reg)
  | pow2 (rd : Reg)
  | muls (rd rs1 rs2 : Reg)
  | mulk (rd rs1 rs2 : Reg)
  | mult3 (rd rs1 rs2 : Reg)
  | div (rd rd2 rs1 rs2 : Reg)
  | mod (rd rs1 rs2 : Reg)
  | montmul (rd rs1 rs2 rs3 : Reg)
  | modexp (rd rd2 rs1 rs2 rs3 : Reg)
  | gcd (rd rs1 rs2 : Reg)
  deriving DecidableEq, Repr

end Sys2Proof
end

