-- ==== Sys2Proof/WellFormed.lean ====
section
/-! DEFINITION. The one check that a command's operands must pass beyond their types (30_encoding.md R76). -/

namespace Sys2Proof

/-- "A word of either command with `rd = rd2` is illegal" (R76), for the two commands with two destinations. Every other command is
well formed with any register numbers (R73). -/
def Instr.wf : Instr → Bool
  | .div rd rd2 _ _ => decide (rd ≠ rd2)
  | .modexp rd rd2 _ _ _ => decide (rd ≠ rd2)
  | .nop | .clr _ | .copy _ _ | .ldi _ | .pushl _ | .neg _ _ | .rdl _ | .rdlen _ | .rdsgn _ | .rdst | .clrf | .bitlen _
  | .add _ _ _ | .sub _ _ _ | .cmp _ _ | .shr _ _ | .div3 _ _ | .pow2 _ | .muls _ _ _ | .mulk _ _ _ | .mult3 _ _ _
  | .mod _ _ _ | .montmul _ _ _ _ | .gcd _ _ _ => true

end Sys2Proof
end

