-- ==== Sys2Proof/Decode.lean ====
section
/-! DEFINITION. Decoding and encoding of command words (30_encoding.md R71, R72, R74 to R77). `decode` is total on all `2^32` words;
an illegal word is rejected with the reason R75 gives. -/

namespace Sys2Proof

/-- The fields of a command word (R71). -/
structure Fields where
  op : BitVec 8
  rd : BitVec 4
  rs1 : BitVec 4
  rs2 : BitVec 4
  rs3 : BitVec 4
  rd2 : BitVec 4
  zero : BitVec 4
  deriving DecidableEq, Repr

/-- `op[31:24] rd[23:20] rs1[19:16] rs2[15:12] rs3[11:8] rd2[7:4] zero[3:0]` (R71). -/
def Fields.ofWord (w : CmdWord) : Fields where
  op := w.extractLsb' 24 8
  rd := w.extractLsb' 20 4
  rs1 := w.extractLsb' 16 4
  rs2 := w.extractLsb' 12 4
  rs3 := w.extractLsb' 8 4
  rd2 := w.extractLsb' 4 4
  zero := w.extractLsb' 0 4

/-- The word with these fields (R71). -/
def Fields.toWord (f : Fields) : CmdWord :=
  f.op ++ f.rd ++ f.rs1 ++ f.rs2 ++ f.rs3 ++ f.rd2 ++ f.zero

/-- The nine formats of R72. -/
inductive Format where
  | F0 | FD | FS | FDS | FSS | FDSS | FDDSS | FDSSS | FDDSSS
  deriving DecidableEq, Repr

/-- The `mask` column of R72: "the bits of the word that are fixed for every command of the format". -/
def Format.mask : Format → CmdWord
  | .F0 => 0xFFFFFFFF
  | .FD => 0xFF0FFFFF
  | .FS => 0xFFF0FFFF
  | .FDS => 0xFF00FFFF
  | .FSS => 0xFFF00FFF
  | .FDSS => 0xFF000FFF
  | .FDDSS => 0xFF000F0F
  | .FDSSS => 0xFF0000FF
  | .FDDSSS => 0xFF00000F

/-- The formats with two destinations, whose words need `rd ≠ rd2` (R76, R77). -/
def Format.twoDestinations : Format → Bool
  | .FDDSS | .FDDSSS => true
  | .F0 | .FD | .FS | .FDS | .FSS | .FDSS | .FDSSS => false

/-- The 26 rows of R74. -/
inductive Opcode where
  | nop | clr | copy | ldi | pushl | neg | rdl | rdlen | rdsgn | rdst | clrf | bitlen
  | add | sub | cmp | shr | div3 | pow2 | muls | mulk | mult3 | div | mod | montmul | modexp | gcd
  deriving DecidableEq, Repr

/-- The `op` column of R74. -/
def Opcode.byte : Opcode → BitVec 8
  | .nop => 0x00
  | .clr => 0x01
  | .copy => 0x02
  | .ldi => 0x03
  | .pushl => 0x04
  | .neg => 0x05
  | .rdl => 0x06
  | .rdlen => 0x07
  | .rdsgn => 0x08
  | .rdst => 0x09
  | .clrf => 0x0A
  | .bitlen => 0x10
  | .add => 0x20
  | .sub => 0x21
  | .cmp => 0x22
  | .shr => 0x23
  | .div3 => 0x24
  | .pow2 => 0x25
  | .muls => 0x30
  | .mulk => 0x31
  | .mult3 => 0x32
  | .div => 0x40
  | .mod => 0x41
  | .montmul => 0x50
  | .modexp => 0x51
  | .gcd => 0x60

/-- The `format` column of R74. -/
def Opcode.format : Opcode → Format
  | .nop => .F0
  | .clr => .FD
  | .copy => .FDS
  | .ldi => .FD
  | .pushl => .FD
  | .neg => .FDS
  | .rdl => .FS
  | .rdlen => .FS
  | .rdsgn => .FS
  | .rdst => .F0
  | .clrf => .F0
  | .bitlen => .FS
  | .add => .FDSS
  | .sub => .FDSS
  | .cmp => .FSS
  | .shr => .FDS
  | .div3 => .FDS
  | .pow2 => .FD
  | .muls => .FDSS
  | .mulk => .FDSS
  | .mult3 => .FDSS
  | .div => .FDDSS
  | .mod => .FDSS
  | .montmul => .FDSSS
  | .modexp => .FDDSSS
  | .gcd => .FDSS

/-- All rows of R74, in its order. -/
def Opcode.all : List Opcode :=
  [.nop, .clr, .copy, .ldi, .pushl, .neg, .rdl, .rdlen, .rdsgn, .rdst, .clrf, .bitlen,
   .add, .sub, .cmp, .shr, .div3, .pow2, .muls, .mulk, .mult3, .div, .mod, .montmul, .modexp, .gcd]

/-- The row of an opcode byte, if it is one of the 26 (R74, R75). -/
def Opcode.ofByte (b : BitVec 8) : Option Opcode := Opcode.all.find? (fun o => o.byte == b)

/-- A register field as a register number: "the 4-bit unsigned numbers in their fields" (R73). -/
def regOfBits (b : BitVec 4) : Reg := ⟨b.toNat, b.isLt⟩

/-- The register field that names a register (R71). -/
def regBits (r : Reg) : BitVec 4 := ⟨r⟩

/-- The command an opcode makes of the register fields its format uses (R72, R74). -/
def Opcode.command (o : Opcode) (f : Fields) : Instr :=
  let rd := regOfBits f.rd
  let rd2 := regOfBits f.rd2
  let rs1 := regOfBits f.rs1
  let rs2 := regOfBits f.rs2
  let rs3 := regOfBits f.rs3
  match o with
  | .nop => .nop
  | .clr => .clr rd
  | .copy => .copy rd rs1
  | .ldi => .ldi rd
  | .pushl => .pushl rd
  | .neg => .neg rd rs1
  | .rdl => .rdl rs1
  | .rdlen => .rdlen rs1
  | .rdsgn => .rdsgn rs1
  | .rdst => .rdst
  | .clrf => .clrf
  | .bitlen => .bitlen rs1
  | .add => .add rd rs1 rs2
  | .sub => .sub rd rs1 rs2
  | .cmp => .cmp rs1 rs2
  | .shr => .shr rd rs1
  | .div3 => .div3 rd rs1
  | .pow2 => .pow2 rd
  | .muls => .muls rd rs1 rs2
  | .mulk => .mulk rd rs1 rs2
  | .mult3 => .mult3 rd rs1 rs2
  | .div => .div rd rd2 rs1 rs2
  | .mod => .mod rd rs1 rs2
  | .montmul => .montmul rd rs1 rs2 rs3
  | .modexp => .modexp rd rd2 rs1 rs2 rs3
  | .gcd => .gcd rd rs1 rs2

/-- Why a word is illegal (R75). -/
inductive DecodeError where
  /-- "its `op` is not one of the 26 opcodes of rule R74" -/
  | unassignedOpcode
  /-- "a register field its format does not use is nonzero; `zero` is nonzero" -/
  | nonzeroField
  /-- "a two-destination command with `rd = rd2`" -/
  | sameDestination
  deriving DecidableEq, Repr

/-- `decode(w)` of R77, with its three tests in its order. It reads neither `arg` nor any register. -/
def decode (w : CmdWord) : Except DecodeError Instr :=
  let f := Fields.ofWord w
  match Opcode.ofByte f.op with
  | none => .error .unassignedOpcode
  | some o =>
    if w &&& o.format.mask ≠ f.op.zeroExtend 32 <<< 24 then .error .nonzeroField
    else if o.format.twoDestinations ∧ f.rd = f.rd2 then .error .sameDestination
    else .ok (o.command f)

/-- The row of R74 a command belongs to. -/
def Instr.opcode : Instr → Opcode
  | .nop => .nop
  | .clr _ => .clr
  | .copy _ _ => .copy
  | .ldi _ => .ldi
  | .pushl _ => .pushl
  | .neg _ _ => .neg
  | .rdl _ => .rdl
  | .rdlen _ => .rdlen
  | .rdsgn _ => .rdsgn
  | .rdst => .rdst
  | .clrf => .clrf
  | .bitlen _ => .bitlen
  | .add _ _ _ => .add
  | .sub _ _ _ => .sub
  | .cmp _ _ => .cmp
  | .shr _ _ => .shr
  | .div3 _ _ => .div3
  | .pow2 _ => .pow2
  | .muls _ _ _ => .muls
  | .mulk _ _ _ => .mulk
  | .mult3 _ _ _ => .mult3
  | .div _ _ _ _ => .div
  | .mod _ _ _ => .mod
  | .montmul _ _ _ _ => .montmul
  | .modexp _ _ _ _ _ => .modexp
  | .gcd _ _ _ => .gcd

/-- The word of opcode `o` with these register fields; a field that is not named is 0 (R71, R72). -/
def wordOf (o : Opcode) (rd rs1 rs2 rs3 rd2 : BitVec 4 := 0) : CmdWord :=
  Fields.toWord { op := o.byte, rd := rd, rs1 := rs1, rs2 := rs2, rs3 := rs3, rd2 := rd2, zero := 0 }

/-- The command word of a command (R71, R72, R74). -/
def encode : Instr → CmdWord
  | .nop => wordOf .nop
  | .clr rd => wordOf .clr (rd := regBits rd)
  | .copy rd rs1 => wordOf .copy (rd := regBits rd) (rs1 := regBits rs1)
  | .ldi rd => wordOf .ldi (rd := regBits rd)
  | .pushl rd => wordOf .pushl (rd := regBits rd)
  | .neg rd rs1 => wordOf .neg (rd := regBits rd) (rs1 := regBits rs1)
  | .rdl rs1 => wordOf .rdl (rs1 := regBits rs1)
  | .rdlen rs1 => wordOf .rdlen (rs1 := regBits rs1)
  | .rdsgn rs1 => wordOf .rdsgn (rs1 := regBits rs1)
  | .rdst => wordOf .rdst
  | .clrf => wordOf .clrf
  | .bitlen rs1 => wordOf .bitlen (rs1 := regBits rs1)
  | .add rd rs1 rs2 => wordOf .add (rd := regBits rd) (rs1 := regBits rs1) (rs2 := regBits rs2)
  | .sub rd rs1 rs2 => wordOf .sub (rd := regBits rd) (rs1 := regBits rs1) (rs2 := regBits rs2)
  | .cmp rs1 rs2 => wordOf .cmp (rs1 := regBits rs1) (rs2 := regBits rs2)
  | .shr rd rs1 => wordOf .shr (rd := regBits rd) (rs1 := regBits rs1)
  | .div3 rd rs1 => wordOf .div3 (rd := regBits rd) (rs1 := regBits rs1)
  | .pow2 rd => wordOf .pow2 (rd := regBits rd)
  | .muls rd rs1 rs2 => wordOf .muls (rd := regBits rd) (rs1 := regBits rs1) (rs2 := regBits rs2)
  | .mulk rd rs1 rs2 => wordOf .mulk (rd := regBits rd) (rs1 := regBits rs1) (rs2 := regBits rs2)
  | .mult3 rd rs1 rs2 => wordOf .mult3 (rd := regBits rd) (rs1 := regBits rs1) (rs2 := regBits rs2)
  | .div rd rd2 rs1 rs2 =>
    wordOf .div (rd := regBits rd) (rs1 := regBits rs1) (rs2 := regBits rs2) (rd2 := regBits rd2)
  | .mod rd rs1 rs2 => wordOf .mod (rd := regBits rd) (rs1 := regBits rs1) (rs2 := regBits rs2)
  | .montmul rd rs1 rs2 rs3 =>
    wordOf .montmul (rd := regBits rd) (rs1 := regBits rs1) (rs2 := regBits rs2) (rs3 := regBits rs3)
  | .modexp rd rd2 rs1 rs2 rs3 =>
    wordOf .modexp (rd := regBits rd) (rs1 := regBits rs1) (rs2 := regBits rs2) (rs3 := regBits rs3)
      (rd2 := regBits rd2)
  | .gcd rd rs1 rs2 => wordOf .gcd (rd := regBits rd) (rs1 := regBits rs1) (rs2 := regBits rs2)

/-- The instruction `decode` reads from a word given as a number, bit 0 least significant: KBC's command word is one 32-bit number on
`cmd_word[31:0]` (R70), so it is taken as it stands. Bits from `nbits` up are 0; no command has more than 32 bits (R71). -/
def decodeTableWord (nbits w : Nat) : Option Instr :=
  if nbits ≤ 32 then
    match decode (BitVec.ofNat 32 (w % 2 ^ nbits)) with
    | .ok i => some i
    | .error _ => none
  else none

end Sys2Proof
end

