-- ==== Sys2Proof/Config.lean ====
section
/-! DEFINITION. What an implementation fixes (the parameter `MAXLIMBS`, R7) and the free values of the one case the spec leaves
undefined, `DIV3` on a value that is not a multiple of 3 (R141, 93_implementation_defined.md U1). -/

namespace Sys2Proof

/-- The parameters of one KBC (R7; "There are no other parameters", section 4 of 00_scope.md).
DESIGN CHOICE (log 1): the parameter travels inside State, so that every statement holds for every `MAXLIMBS` and a run can be
evaluated; no step changes it. Safe. -/
structure Config where
  /-- `MAXLIMBS`: "the greatest `limb_count` a BigInt register can hold" (R7). -/
  maxLimbs : Nat
  deriving DecidableEq, Repr

/-- `1 ≤ MAXLIMBS ≤ 2^32` (R7). -/
def Config.wf (c : Config) : Bool := decide (1 ≤ c.maxLimbs) && decide (c.maxLimbs ≤ 2 ^ 32)

/-! The free values of an inexact `DIV3` (U1). Each is a constant without a body applied to a counter of State, so that no proof can
know a value and two draws need not agree (log 5, log 6). Safe. -/

/-- The content of `x[rd]`: a sign (true for negative) and a limb sequence. -/
opaque Config.freeContent : Nat → Bool × List Limb

/-- The error code of the response, as an index into the five codes KBC can give (R27). -/
opaque Config.freeErr : Nat → Fin 5

/-- The scalar of the response. -/
opaque Config.freeRes : Nat → Scalar

/-- `STATUS.LASTERR`, as an index into the five codes. -/
opaque Config.freeLastErr : Nat → Fin 5

/-- `STATUS.FAULT` and `STATUS.FIRSTERR`: index 0 is `FAULT = 0` with `FIRSTERR = 0`, the others are `FAULT = 1` with one of the
four codes an error can have (R26). -/
opaque Config.freeFirstErr : Nat → Fin 5

end Sys2Proof
end

