-- ==== Sys2Proof/Machine/State.lean ====
section
/-! DEFINITION. The state of KBC as plain data (10_state.md R20, R21, R26), the port's signals beside it (30_encoding.md R70), the
outcomes of a step, and the state after reset (R32, R270). -/

namespace Sys2Proof.Machine

/-- The tri-state of R16: a sign (negative, zero, positive) or the result of a comparison (less, equal, greater), carried as the
two-bit code `TRI2`. The code `0b10` is never produced, and no value here has it. -/
inductive Tri where
  /-- negative, or less: −1 -/
  | neg
  /-- zero, or equal: 0 -/
  | zero
  /-- positive, or greater: +1 -/
  | pos
  deriving DecidableEq, Repr

/-- The error codes of R241: success and the six error kinds. `bufferTooSmall` and `notAcceptable` hold their numbers and are never
raised (R242). -/
inductive Err where
  | none
  | allocationFailed
  | badInputData
  | bufferTooSmall
  | divisionByZero
  | notAcceptable
  | illegalCommand
  deriving DecidableEq, Repr

/-- The content of one register (R21): a sign and the limbs of the magnitude, "most-significant limb first". -/
structure BigInt where
  sign : Tri
  limbs : List Limb
  deriving DecidableEq, Repr

/-- "Zero is represented uniquely as `sign = zero`, `limb_count = 0`" (R22). -/
def BigInt.zero : BigInt := ⟨.zero, []⟩

/-- The fields of the register `STATUS` (R26). Its other bits read as zero and cannot be written, so nothing is stored for them. -/
structure Status where
  /-- `LASTERR`, bits 3:0 -/
  lastErr : Err
  /-- `FAULT`, bit 4 -/
  fault : Bool
  /-- `FIRSTERR`, bits 11:8 -/
  firstErr : Err
  /-- `CMP`, bits 13:12 -/
  cmp : Tri
  deriving DecidableEq, Repr

/-- `STATUS = 0` (R32). -/
def Status.reset : Status := ⟨.none, false, .none, .zero⟩

/-- A response of the port: `rsp_err` and `rsp_res` (R70, R78). -/
structure Response where
  err : Err
  res : Scalar
  deriving DecidableEq, Repr

/-- What the host can do at the port: "it can issue commands and assert reset, and it can do nothing else to the block" (R2). -/
inductive HostEvent where
  /-- `cmd_valid = 1` with this `cmd_word` and `cmd_arg` -/
  | cmd (word : CmdWord) (arg : Scalar)
  /-- `rst = 1` -/
  | rst
  deriving DecidableEq, Repr

/-- The state. `regs` and `status` are all the architectural state there is (R20). `pending`, `arg` and `rsp` are the port (log 2,
log 3, log 4), `cfg` the machine's parameter (log 1), and `freeCount` the model's counter of free values (log 7). -/
structure State where
  /-- `x[0]` to `x[15]` (R21) -/
  regs : Vector BigInt 16
  /-- `STATUS` (R26) -/
  status : Status
  /-- the parameter `MAXLIMBS` (R7); never changed by a step -/
  cfg : Config
  /-- what the host does next, oldest first (R25, R70) -/
  pending : List HostEvent
  /-- `cmd_arg` of the command being executed (R73) -/
  arg : Scalar
  /-- the response of this step; `none` is `rsp_valid = 0` (R70) -/
  rsp : Option Response
  /-- how often free values have been drawn (U1) -/
  freeCount : Nat
  deriving DecidableEq, Repr

/-- The reasons the machine can stop with a fault: none. Every error of KBC is answered and the next command is accepted (R240), every
command terminates (R278), and there is no stuck state (93_implementation_defined.md U10). -/
inductive Fault where
  deriving DecidableEq, Repr

/-- The reasons a step can have no meaning. -/
inductive Refusal where
  /-- Raised by an arm of `exec` whose instruction has no meaning in the model yet; no arm raises it. Safe. -/
  | notModelled (mnemonic : String)
  deriving DecidableEq, Repr

/-- What a meaning answers. -/
abbrev Result := Host.Outcome State Fault Refusal

/-- The reset state of the machine whose `MAXLIMBS` is `n`: "every BigInt register holds zero", "`STATUS = 0`" (R32), no response
(R270); nothing asked of it yet. -/
def State.resetWith (n : Nat) : State where
  regs := Vector.replicate 16 BigInt.zero
  status := Status.reset
  cfg := ⟨n⟩
  pending := []
  arg := 0
  rsp := none
  freeCount := 0

/-- The machine right after reset (R32, R270), with the greatest capacity R7 allows (DESIGN CHOICE, log 1, unsafe: no statement may
rest on that value). -/
def State.reset : State := State.resetWith (2 ^ 32)

end Sys2Proof.Machine
end

