-- ==== Sys2Proof/Machine/Flags.lean ====
section
/-! DEFINITION. The codes of signs, comparisons and errors, the one condition flag `STATUS.CMP` (10_state.md R28), and the word that
`RDST` reads (40_data_movement.md R109). -/

namespace Sys2Proof.Machine

/-- `TRI2` (R16): "`0b00` for 0, `0b01` for +1, `0b11` for −1". -/
def Tri.code : Tri → BitVec 2
  | .zero => 0b00
  | .pos => 0b01
  | .neg => 0b11

/-- The opposite sign; for a comparison, the reversed one (R105, R137). -/
def Tri.negate : Tri → Tri
  | .neg => .pos
  | .zero => .zero
  | .pos => .neg

/-- The number of an error code (R241). -/
def Err.code : Err → BitVec 4
  | .none => 0
  | .allocationFailed => 1
  | .badInputData => 2
  | .bufferTooSmall => 3
  | .divisionByZero => 4
  | .notAcceptable => 5
  | .illegalCommand => 6

/-- The codes "KBC can raise: 0, 1, 2, 4 and 6" (R27). -/
def Err.legal : Err → Bool
  | .none | .allocationFailed | .badInputData | .divisionByZero | .illegalCommand => true
  | .bufferTooSmall | .notAcceptable => false

/-- The five legal codes in order (R27). -/
def Err.ofIndex (k : Fin 5) : Err :=
  match k with
  | 0 => .none
  | 1 => .allocationFailed
  | 2 => .badInputData
  | 3 => .divisionByZero
  | 4 => .illegalCommand

/-- `zext_64(TRI2(c))` (R108, R137). -/
def Tri.scalar (c : Tri) : Scalar := c.code.zeroExtend 64

/-- `STATUS` zero-extended to 64 bits (R109): "`{50 zero bits, STATUS.CMP[1:0], STATUS.FIRSTERR[3:0], 3 zero bits, STATUS.FAULT,
STATUS.LASTERR[3:0]}`". -/
def Status.word (t : Status) : Scalar :=
  (0 : BitVec 50) ++ t.cmp.code ++ t.firstErr.code ++ (0 : BitVec 3) ++ BitVec.ofBool t.fault ++ t.lastErr.code

/-- `STATUS.CMP <- TRI2(c)` (R137); no other command writes the flag (R28). -/
def State.setCmp (c : Tri) (s : State) : State := { s with status := { s.status with cmp := c } }

end Sys2Proof.Machine
end

