-- ==== Sys2Proof/Machine/Limbs.lean ====
section
/-! DEFINITION. Limb sequences, most significant limb first, and the integers they stand for (00_scope.md R9, R11, R23); the
canonicalization unit `trim` (41_representation.md R120). -/

namespace Sys2Proof.Machine

/-- `bitlen(a)`: "the least `k ≥ 0` with `a < 2^k`" (R9). -/
def bitlen (a : Nat) : Nat := if a = 0 then 0 else Nat.log2 a + 1

/-- `val(L) = Σ L[i]·β^(n−1−i)` (R11). -/
def val : List Limb → Nat
  | [] => 0
  | d :: L => d.toNat * (2 ^ 64) ^ L.length + val L

/-- `ls(L, k)`: "the `k`-th limb counted from the least significant end", `0` beyond the length (R11). -/
def ls (L : List Limb) (k : Nat) : Limb := L.reverse.getD k 0

/-- The limbs of `m`, least significant first, under fuel. -/
def limbsFromLeast : Nat → Nat → List Limb
  | 0, _ => []
  | fuel + 1, m => if m = 0 then [] else BitVec.ofNat 64 m :: limbsFromLeast fuel (m / 2 ^ 64)

/-- `limbs(m)`: "the unique sequence with `val = m` and either `len = 0` (when `m = 0`) or `L[0] ≠ 0`" (R11). -/
def toLimbs (m : Nat) : List Limb := (limbsFromLeast (bitlen m / 64 + 1) m).reverse

/-- The limb part of `trim` (R120): leading zero limbs are dropped, others kept. -/
def trimLimbs : List Limb → List Limb
  | [] => []
  | d :: L => if d = 0 then trimLimbs L else d :: L

/-- `trim(s, L)` (R120): the canonical pair; the sign is forced to zero if the magnitude is zero. -/
def trim (s : Tri) (L : List Limb) : BigInt :=
  let L' := trimLimbs L
  ⟨if L' = [] then .zero else s, L'⟩

/-- `sgn` of a tri-state as an integer (R9, R16). -/
def Tri.toInt : Tri → Int
  | .neg => -1
  | .zero => 0
  | .pos => 1

/-- The tri-state that is `sgn(v)` (R9, R16). -/
def Tri.ofInt (v : Int) : Tri := if v < 0 then .neg else if v = 0 then .zero else .pos

/-- The integer view of a register's content: `v = sgn · val(limbs)` (R23). -/
def BigInt.toInt (b : BigInt) : Int := b.sign.toInt * val b.limbs

/-- The content that stands for `v`: "sign `sgn(v)`, limbs `limbs(abs(v))`" (R12, R23). -/
def BigInt.ofInt (v : Int) : BigInt := ⟨Tri.ofInt v, toLimbs v.natAbs⟩

end Sys2Proof.Machine
end

