-- ==== Sys2Proof/Machine/Operands.lean ====
section
/-! DEFINITION. The operand forms of KBC: a BigInt register read as an integer, by its attributes, or one limb of it (00_scope.md R12,
R15; 20_memory.md R50), and the scalar `arg` (30_encoding.md R73). There are no others (40_data_movement.md R112). -/

namespace Sys2Proof.Machine

/-- The content of register `r`: `x[r].sign` and `x[r].limbs` (R12, R21). -/
def State.reg (s : State) (r : Reg) : BigInt := s.regs[r]

/-- `x[r]` as an integer (R12, R23). -/
def State.value (s : State) (r : Reg) : Int := (s.reg r).toInt

/-- `x[r].limbs` (R12, R21). -/
def State.limbsOf (s : State) (r : Reg) : List Limb := (s.reg r).limbs

/-- `x[r].len`, the `limb_count` (R21). -/
def State.len (s : State) (r : Reg) : Nat := (s.limbsOf r).length

/-- `LimbRead(r, k) = x[r].limbs[k]`, index 0 most significant; "the pair `(i, k)` with `k ≥ x[i].len` addresses nothing" (R15, R50). -/
def State.limbRead (s : State) (r : Reg) (k : Nat) : Option Limb := (s.limbsOf r)[k]?

/-- The scalar operand: "used as it stands, with no sign extension, scaling or shifting" (R73). -/
def State.scalar (s : State) : Nat := s.arg.toNat

end Sys2Proof.Machine
end

