-- ==== Sys2Proof/Machine/Ops.lean ====
section
/-! DEFINITION. The operations every command is made of: writing a register (00_scope.md R12), taking an exception and completing
without one (60_exceptions.md R246), the capacity check (R243) and the last steps of the execution skeleton (40_data_movement.md R111),
reset (70_reset_and_hazards.md R270), and the free values of an inexact `DIV3` (93_implementation_defined.md U1).
There is no return from an exception (R252): nothing was entered. `CLRF` (DataMovement.lean) clears the record. -/

namespace Sys2Proof.Machine

/-- A register takes a new content, whole (R51, R59). No two registers share storage (R24). -/
def State.setReg (s : State) (r : Reg) (b : BigInt) : State := { s with regs := s.regs.set r b }

/-- `x[r] <- v`: "writes the integer `v` in canonical form" (R12). -/
def State.write (s : State) (r : Reg) (v : Int) : State := s.setReg r (BigInt.ofInt v)

/-- Taking an exception: `raise e` (R14, R246). `FIRSTERR` is written if `FAULT` was 0, `FAULT` is set, `LASTERR` is written, the
response is `(e, 0)`. No register and not `CMP` changes, nothing is saved, control goes nowhere (R249, R251). -/
def raise (e : Err) (s : State) : State :=
  { s with
    status :=
      { s.status with
        lastErr := e
        fault := true
        firstErr := if s.status.fault then s.status.firstErr else e }
    rsp := some ⟨e, 0⟩ }

/-- Success of a command other than `RDST`: `LASTERR <- 0` and the response `(0, res)` (R246; step 7 of R111). -/
def succeed (res : Scalar) (s : State) : State :=
  { s with status := { s.status with lastErr := .none }, rsp := some ⟨.none, res⟩ }

/-- The test of R243: `len(limbs(abs(v))) ≤ MAXLIMBS`. -/
def fits (s : State) (v : Int) : Bool := decide ((toLimbs v.natAbs).length ≤ s.cfg.maxLimbs)

/-- A command ends with an exception: a next state (R240). -/
def throwErr (e : Err) (s : State) : Result := .next (raise e s)

/-- A command that writes no register ends with the scalar `res` (R111 steps 6 and 7). -/
def answer (res : Scalar) (s : State) : Result := .next (succeed res s)

/-- Steps 5 to 7 of R111 for one destination: the capacity check, the write, the status. -/
def commit (rd : Reg) (v : Int) (s : State) : Result :=
  if fits s v then answer 0 (s.write rd v) else throwErr .allocationFailed s

/-- Steps 5 to 7 of R111 for two destinations: "both values are tested and neither register is written if either fails" (R243). -/
def commitTwo (rd : Reg) (v : Int) (rd2 : Reg) (v2 : Int) (s : State) : Result :=
  if fits s v && fits s v2 then answer 0 ((s.write rd v).write rd2 v2) else throwErr .allocationFailed s

/-- A content within what every register must satisfy (R22), cut out of a free one: canonical, at most `cap` limbs. Every such
content is the cut of some free one. -/
def boundedContent (cap : Nat) (c : Bool × List Limb) : BigInt :=
  trim (if c.1 then .neg else .pos) (c.2.take cap)

/-- `FAULT` and `FIRSTERR` from a free index, within R26 and R27. -/
def faultRecord (k : Fin 5) : Bool × Err := (decide (k ≠ 0), Err.ofIndex k)

/-- The end of an inexact `DIV3` (U1): "The content of `x[rd]`, the response `err` and `res`, and `STATUS.LASTERR`, `FAULT`,
`FIRSTERR` after such a command are undefined; all other registers and `STATUS.CMP` are unchanged and the command terminates."
The six undefined values are free (log 5), within the limits R22, R26 and R27 set for every state (log 6). -/
def undefinedResult (rd : Reg) (s : State) : State :=
  let n := s.freeCount
  let record := faultRecord (Config.freeFirstErr n)
  { s.setReg rd (boundedContent s.cfg.maxLimbs (Config.freeContent n)) with
    status :=
      { s.status with
        lastErr := Err.ofIndex (Config.freeLastErr n)
        fault := record.1
        firstErr := record.2 }
    rsp := some ⟨Err.ofIndex (Config.freeErr n), Config.freeRes n⟩
    freeCount := n + 1 }

/-- The port takes a command: `cmd_word` goes to the decoder, `cmd_arg` is held for the command (R70, R73), and the host's list moves on. -/
def State.accept (s : State) (arg : Scalar) (rest : List HostEvent) : State := { s with arg := arg, pending := rest }

/-- `rst = 1` (R270): every register zero, `STATUS = 0`, `rsp_valid = 0`. "`MAXLIMBS` is a configuration constant, not state, and is the
same before and after." What the host does next is the host's. -/
def State.resetTo (s : State) (rest : List HostEvent) : State :=
  { State.resetWith s.cfg.maxLimbs with pending := rest, freeCount := s.freeCount }

/-- Nothing is presented: the block "simply waits" (R271) and gives no response (R70). -/
def State.idle (s : State) : State := { s with rsp := none }

end Sys2Proof.Machine
end

