-- ==== Sys2Proof/Machine/DataMovement.lean ====
section
/-! DEFINITION. The data movement and status commands (40_data_movement.md R100 to R110): the pseudocode of each rule between the
steps that R111 gives every command. -/

namespace Sys2Proof.Machine

/-- `NOP` (R100): nothing but `LASTERR <- 0`. -/
def execNop (s : State) : Result := answer 0 s

/-- `CLR rd` (R101): `x[rd] <- 0`. -/
def execClr (rd : Reg) (s : State) : Result := commit rd 0 s

/-- `COPY rd, rs1` (R102): `x[rd] <- x[rs1]`. -/
def execCopy (rd rs1 : Reg) (s : State) : Result := commit rd (s.value rs1) s

/-- `LDI rd, #arg` (R103): `x[rd] <- arg`. -/
def execLdi (rd : Reg) (s : State) : Result := commit rd s.scalar s

/-- The value of `PUSHL` (R104): the limb `a` appended to the magnitude of `v`, the sign of a nonzero `v` kept. -/
def pushLimb (v : Int) (a : Nat) : Int :=
  let m : Int := v.natAbs * 2 ^ 64 + a
  if v < 0 then -m else m

/-- `PUSHL rd, #arg` (R104). -/
def execPushl (rd : Reg) (s : State) : Result := commit rd (pushLimb (s.value rd) s.scalar) s

/-- `NEG rd, rs1` (R105): `x[rd] <- −x[rs1]`. -/
def execNeg (rd rs1 : Reg) (s : State) : Result := commit rd (-s.value rs1) s

/-- `RDL rs1, #arg` (R106): the limb at index `arg`, or `BadInputData` when there is none. -/
def execRdl (rs1 : Reg) (s : State) : Result :=
  match s.limbRead rs1 s.scalar with
  | none => throwErr .badInputData s
  | some limb => answer limb s

/-- `RDLEN rs1` (R107): `res <- zext_64(x[rs1].len)`. -/
def execRdlen (rs1 : Reg) (s : State) : Result := answer (BitVec.ofNat 64 (s.len rs1)) s

/-- `RDSGN rs1` (R108): `res <- zext_64(TRI2(sgn(x[rs1])))`. -/
def execRdsgn (rs1 : Reg) (s : State) : Result := answer (s.reg rs1).sign.scalar s

/-- `RDST` (R109): `STATUS` as it stood before; "it changes no state at all". -/
def execRdst (s : State) : Result := .next { s with rsp := some ⟨.none, s.status.word⟩ }

/-- `CLRF` (R110): `FAULT <- 0; FIRSTERR <- 0`, and `LASTERR <- 0` as a success. -/
def execClrf (s : State) : Result :=
  answer 0 { s with status := { s.status with fault := false, firstErr := .none } }

end Sys2Proof.Machine
end

