-- ==== Sys2Proof/Machine/Linear.lean ====
section
/-! DEFINITION. Linear arithmetic (42_linear_arithmetic.md): the limb comparator, adder, subtractor and shifter, exact division by 3
(R130 to R133, R138, R140), and ADD, SUB, CMP, SHR, DIV3, POW2.
A helper that works from the least significant limb is written on the reversed sequence. Its double-width intermediate is an exact
number, from which the 64-bit limb and the carry or borrow are taken (DEDUCED, log 17: the rules show that 128 bits never overflow). -/

namespace Sys2Proof.Machine

/-- The limb-by-limb scan of `mag_cmp` from the most significant limb (R130). -/
def scanLimbs : List Limb → List Limb → Tri
  | p :: P, q :: Q => if p.toNat > q.toNat then .pos else if p.toNat < q.toNat then .neg else scanLimbs P Q
  | _, _ => .zero

/-- `mag_cmp(P, Q)` (R130): more limbs is larger; with equal counts the first differing pair decides. -/
def magCmp (P Q : List Limb) : Tri :=
  if P.length > Q.length then .pos
  else if P.length < Q.length then .neg
  else scanLimbs P Q

/-- The loop of `mag_add` (R131) beyond the shorter operand, whose limbs there are 0; a carry out of the top limb is one more limb. -/
def carryLoop : List Limb → Nat → List Limb
  | [], carry => if carry = 1 then [1] else []
  | p :: P, carry =>
    let t := p.toNat + carry
    BitVec.ofNat 64 t :: carryLoop P (t / 2 ^ 64)

/-- The loop of `mag_add` (R131), least significant limb first. -/
def addLoop : List Limb → List Limb → Nat → List Limb
  | [], Q, carry => carryLoop Q carry
  | p :: P, [], carry => carryLoop (p :: P) carry
  | p :: P, q :: Q, carry =>
    let t := p.toNat + q.toNat + carry
    BitVec.ofNat 64 t :: addLoop P Q (t / 2 ^ 64)

/-- `mag_add(P, Q)` (R131). -/
def magAdd (P Q : List Limb) : List Limb := (addLoop P.reverse Q.reverse 0).reverse

/-- The loop of `mag_sub` (R132), least significant limb first: a negative intermediate is a borrow of 1 into the next limb. -/
def subLoop : List Limb → List Limb → Int → List Limb
  | [], _, _ => []
  | p :: P, Q, borrow =>
    let t : Int := p.toNat - (Q.headD 0).toNat - borrow
    if t < 0 then BitVec.ofInt 64 (t + 2 ^ 64) :: subLoop P Q.tail 1
    else BitVec.ofInt 64 t :: subLoop P Q.tail 0

/-- `mag_sub(P, Q)` (R132), for `val(P) ≥ val(Q)`; the result is trimmed. -/
def magSub (P Q : List Limb) : List Limb := trimLimbs (subLoop P.reverse Q.reverse 0).reverse

/-- `sadd(a, b)` (R133): the sign-magnitude reduction of signed addition. -/
def sadd (a b : Int) : Int :=
  let A := toLimbs a.natAbs
  let B := toLimbs b.natAbs
  if a = 0 then b
  else if b = 0 then a
  else if a.sign = b.sign then a.sign * val (magAdd A B)
  else
    match magCmp A B with
    | .zero => 0
    | .pos => a.sign * val (magSub A B)
    | .neg => b.sign * val (magSub B A)

/-- `ADD rd, rs1, rs2` (R134): `x[rd] <- sadd(x[rs1], x[rs2])`. -/
def execAdd (rd rs1 rs2 : Reg) (s : State) : Result := commit rd (sadd (s.value rs1) (s.value rs2)) s

/-- `SUB rd, rs1, rs2` (R135): `x[rd] <- sadd(x[rs1], −x[rs2])`. -/
def execSub (rd rs1 rs2 : Reg) (s : State) : Result := commit rd (sadd (s.value rs1) (-s.value rs2)) s

/-- The three-way comparison of two signed contents (R137; 90_conflicts.md C4: the direction is flipped for negative operands in both
cases). Unequal signs decide outright, in the order negative < zero < positive. -/
def compareSigned (a b : BigInt) : Tri :=
  if a.sign ≠ b.sign then (if a.sign.toInt > b.sign.toInt then .pos else .neg)
  else
    match a.sign with
    | .zero => .zero
    | .pos => magCmp a.limbs b.limbs
    | .neg => (magCmp a.limbs b.limbs).negate

/-- `CMP rs1, rs2` (R137): `STATUS.CMP <- TRI2(c); res <- zext_64(TRI2(c))`. -/
def execCmp (rs1 rs2 : Reg) (s : State) : Result :=
  let c := compareSigned (s.reg rs1) (s.reg rs2)
  answer c.scalar (s.setCmp c)

/-- The sub-limb shift of `shr_mag` by `k` bits, `0 < k < 64` (R138): each limb takes in the low bits of the limb at the next lower
index, `hi` for the first. -/
def shiftLimbs (k : Nat) : Limb → List Limb → List Limb
  | _, [] => []
  | hi, d :: L => (d >>> k ||| hi <<< (64 - k)) :: shiftLimbs k d L

/-- `shr_mag(P, n)` (R138): the whole-limb shift, then the sub-limb shift. -/
def shrMag (P : List Limb) (n : Nat) : List Limb :=
  let q := n / 64
  let k := n % 64
  if q ≥ P.length then []
  else
    let T := P.take (P.length - q)
    if k = 0 then T else trimLimbs (shiftLimbs k 0 T)

/-- `SHR rd, rs1, #arg` (R139): the magnitude is shifted, the sign kept unless the result is zero. -/
def execShr (rd rs1 : Reg) (s : State) : Result :=
  commit rd ((s.value rs1).sign * val (shrMag (s.limbsOf rs1) s.scalar)) s

/-- `INV3`, the inverse of 3 modulo `2^64` (R140; G2 of 93_implementation_defined.md). -/
def inv3 : Limb := 0xAAAAAAAAAAAAAAAB

/-- `T1 = (2^64 − 1) div 3` (R140). -/
def third1 : Limb := 0x5555555555555555

/-- `T2 = 2·T1` (R140). -/
def third2 : Limb := 0xAAAAAAAAAAAAAAAA

/-- The loop of `div3_mag` (R140), least significant limb first, with the pending borrow `c`. -/
def div3Loop : List Limb → Nat → List Limb
  | [], _ => []
  | a :: L, c =>
    let t := a - BitVec.ofNat 64 c
    let b := if a.toNat < c then 1 else 0
    let q := t * inv3
    q :: div3Loop L (b + (if q > third1 then 1 else 0) + (if q > third2 then 1 else 0))

/-- `div3_mag(P)` (R140), for a magnitude that 3 divides. -/
def div3Mag (P : List Limb) : List Limb := trimLimbs (div3Loop P.reverse 0).reverse

/-- `DIV3 rd, rs1` (R141): the exact quotient by 3, with the sign kept. On a value that 3 does not divide, the values the spec calls
undefined are free and the command goes on (U1; log 5). -/
def execDiv3 (rd rs1 : Reg) (s : State) : Result :=
  if s.value rs1 % 3 ≠ 0 then .next (undefinedResult rd s)
  else commit rd ((s.value rs1).sign * val (div3Mag (s.limbsOf rs1))) s

/-- `POW2 rd, #arg` (R143): the capacity is tested on `arg` before `2^arg` is built. -/
def execPow2 (rd : Reg) (s : State) : Result :=
  if s.scalar / 64 + 1 > s.cfg.maxLimbs then throwErr .allocationFailed s
  else commit rd (2 ^ s.scalar) s

end Sys2Proof.Machine
end

