-- ==== Sys2Proof/Machine/Division.lean ====
section
/-! DEFINITION. The division engine (44_division.md): restoring division of magnitudes (R194, R195, R197), the signed correction (R198;
90_conflicts.md C1), and DIV and MOD. -/

namespace Sys2Proof.Machine

/-- `qbit_estimate(r, v, i)` (R197): 1 when `bitlen(r) ≥ bitlen(v) + i`. -/
def qbitEstimate (r v i : Nat) : Bool := decide (bitlen r ≥ bitlen v + i)

/-- The bit loop of `div_general` (R195), from bit `i − 1` down to 0: tentatively set, subtract, restore if negative. -/
def divBits (v : Nat) : Nat → Nat → Int → Nat × Int
  | 0, q, r => (q, r)
  | i + 1, q, r =>
    if qbitEstimate r.toNat v i then
      let r' := sadd r (-(v * 2 ^ i : Nat))
      if r' < 0 then divBits v i q (sadd r' (v * 2 ^ i : Nat)) else divBits v i (q + 2 ^ i) r'
    else divBits v i q r

/-- `div_general(u, v)` (R195): the top alignment, which runs "0 or 1 times" (log 14), then the bits below it. -/
def divGeneral (u v : Nat) : Nat × Int :=
  let n := bitlen u - bitlen v
  if u ≥ v * 2 ^ n then divBits v n (2 ^ n) (sadd u (-(v * 2 ^ n : Nat))) else divBits v n 0 u

/-- `div_abs(u, v)` (R194): the two fast paths and the general case. -/
def divAbs (u v : Nat) : Nat × Int :=
  if magCmp (toLimbs u) (toLimbs v) = .neg then (0, u)
  else if bitlen v = 1 then (u, 0)
  else divGeneral u v

/-- `div_signed(a, b)` for `b ≠ 0` (R198): the truncating result, corrected when the signs differ and the remainder is not zero. -/
def divSigned (a b : Int) : Int × Int :=
  let (q, r) := divAbs a.natAbs b.natAbs
  let Q := a.sign * b.sign * q
  let R := a.sign * r
  if a.sign * b.sign < 0 ∧ R ≠ 0 then (sadd Q (-1), sadd R b) else (Q, R)

/-- The floored remainder of the division engine, as the composite commands use it (R191, R215, R233). -/
def floorMod (a b : Int) : Int := (divSigned a b).2

/-- `DIV rd, rd2, rs1, rs2` (R190). -/
def execDiv (rd rd2 rs1 rs2 : Reg) (s : State) : Result :=
  let a := s.value rs1
  let b := s.value rs2
  if b = 0 then throwErr .divisionByZero s
  else commitTwo rd (divSigned a b).1 rd2 (divSigned a b).2 s

/-- `MOD rd, rs1, rs2` (R191). -/
def execMod (rd rs1 rs2 : Reg) (s : State) : Result :=
  let a := s.value rs1
  let b := s.value rs2
  if b = 0 then throwErr .divisionByZero s
  else commit rd (divSigned a b).2 s

end Sys2Proof.Machine
end

