-- ==== Sys2Proof/Machine/Montgomery.lean ====
section
/-! DEFINITION. Montgomery arithmetic (45_montgomery.md): the REDC recurrence (R211, R212), square-and-multiply (R215), and MONTMUL and
MODEXP. -/

namespace Sys2Proof.Machine

/-- One step of Newton's iteration for the inverse of `n` modulo `2^64`: `x·(2 − n·x)`. -/
def newtonStep (n x : Nat) : Nat := x * (2 + (2 ^ 64 - n * x % 2 ^ 64)) % 2 ^ 64

/-- `neg_inv64(N)` (R212): the `m'` below `β` with `(N mod β)·m' ≡ −1 (mod β)`, for odd `N`. "Any method that returns this value will do":
five Newton steps from `N mod β`, which is its own inverse modulo 8 (DESIGN CHOICE, log 13). -/
def negInv64 (N : Nat) : Nat :=
  let n := N % 2 ^ 64
  let inv := newtonStep n (newtonStep n (newtonStep n (newtonStep n (newtonStep n n))))
  (2 ^ 64 - inv) % 2 ^ 64

/-- The recurrence of `redc` (R211) for `k` more limb positions, `X` holding the limbs not yet used: `u_i`, then the exact division by `β`. -/
def redcLoop (N m' Y : Nat) : Nat → Nat → Nat → Nat
  | 0, _, A => A
  | k + 1, X, A =>
    let xi := X % 2 ^ 64
    let y0 := Y % 2 ^ 64
    let ui := (A % 2 ^ 64 + xi * y0) * m' % 2 ^ 64
    redcLoop N m' Y k (X / 2 ^ 64) ((A + xi * Y + ui * N) / 2 ^ 64)

/-- `redc(N, X, Y)` (R211): `limb_count(N)` steps (90_conflicts.md C5), then the final conditional subtraction, once. -/
def redc (N X Y : Nat) : Nat :=
  let A := redcLoop N (negInv64 N) Y (toLimbs N).length X 0
  if A ≥ N then A - N else A

/-- `MONTMUL rd, rs1, rs2, rs3` (R210): the domain tests in the order of R245, then `redc`. -/
def execMontmul (rd rs1 rs2 rs3 : Reg) (s : State) : Result :=
  let X := s.value rs1
  let Y := s.value rs2
  let N := s.value rs3
  if N ≤ 0 ∨ N % 2 = 0 then throwErr .badInputData s
  else if X < 0 ∨ X ≥ N then throwErr .badInputData s
  else if Y < 0 ∨ Y ≥ N then throwErr .badInputData s
  else commit rd (redc N.toNat X.toNat Y.toNat) s

/-- The loop of `modexp_core` (R215) over the `k` lowest bits of `e`, most significant first: square every step, multiply on a 1. -/
def expLoop (N e bm : Nat) : Nat → Nat → Nat
  | 0, acc => acc
  | k + 1, acc =>
    let acc := redc N acc acc
    expLoop N e bm k (if e.testBit k then redc N acc bm else acc)

/-- `modexp_core(b, e, N)` (R215): `(result, R² mod N)`. -/
def modexpCore (b : Int) (e N : Nat) : Nat × Nat :=
  let n := (toLimbs N).length
  let R2 := (floorMod (2 ^ (128 * n)) N).toNat
  let b1 := (floorMod b N).toNat
  let bm := redc N b1 R2
  let acc := redc N R2 1
  (redc N (expLoop N e bm (bitlen e) acc) 1, R2)

/-- `MODEXP rd, rd2, rs1, rs2, rs3` (R214): the domain tests in the order of R245, then both results. -/
def execModexp (rd rd2 rs1 rs2 rs3 : Reg) (s : State) : Result :=
  let b := s.value rs1
  let e := s.value rs2
  let N := s.value rs3
  if N ≤ 0 ∨ N % 2 = 0 then throwErr .badInputData s
  else if e < 0 then throwErr .badInputData s
  else
    let r := modexpCore b e.toNat N.toNat
    commitTwo rd r.1 rd2 r.2 s

end Sys2Proof.Machine
end

