-- ==== Sys2Proof/Machine/Multiplication.lean ====
section
/-! DEFINITION. Multiplication (43_multiplication.md): schoolbook (R160), Karatsuba (R165, R166) and Toom-Cook-3 (R171 to R175), and
MULS, MULK, MULT3. -/

namespace Sys2Proof.Machine

/-- One pass of the inner loop of `mul_school` (R160): the limb `p` against the limbs of `Q`, added to the partial sums `S` at the same
offset, least significant first; the last carry is the cell after them. -/
def mulRow (p : Limb) : List Limb → List Limb → Nat → List Limb
  | [], _, carry => [BitVec.ofNat 64 carry]
  | q :: Q, S, carry =>
    let t := p.toNat * q.toNat + (S.headD 0).toNat + carry
    BitVec.ofNat 64 t :: mulRow p Q S.tail (t / 2 ^ 64)

/-- The outer loop of `mul_school` (R160): after each pass the lowest partial sum is final, the others go on to the next. -/
def mulLoop : List Limb → List Limb → List Limb → List Limb
  | [], _, S => S
  | p :: P, Q, S =>
    let row := mulRow p Q S 0
    row.headD 0 :: mulLoop P Q row.tail

/-- `mul_school(P, Q)` (R160). -/
def mulSchool (P Q : List Limb) : List Limb :=
  trimLimbs (mulLoop P.reverse Q.reverse (List.replicate Q.length 0)).reverse

/-- `MULS rd, rs1, rs2` (R161). With the same operands MULS, MULK and MULT3 give the same value and the same error (R163). -/
def execMuls (rd rs1 rs2 : Reg) (s : State) : Result :=
  commit rd ((s.value rs1).sign * (s.value rs2).sign * val (mulSchool (s.limbsOf rs1) (s.limbsOf rs2))) s

/-- `karatsuba_split(P, m2)` (R166): `(high, low)`, the low part being the `m2` least significant limbs. -/
def karatsubaSplit (P : List Limb) (m2 : Nat) : List Limb × List Limb :=
  if P.length ≤ m2 then ([], P) else (P.take (P.length - m2), P.drop (P.length - m2))

/-- `kar(P, Q)` (R165) under fuel. R167 gives the fuel and shows that it does not run out; where it would, the schoolbook product
stands (log 11). -/
def karFuel : Nat → List Limb → List Limb → List Limb
  | 0, P, Q => mulSchool P Q
  | fuel + 1, P, Q =>
    let P := trimLimbs P
    let Q := trimLimbs Q
    if P.length = 0 ∨ Q.length = 0 then []
    else if P.length = 1 ∨ Q.length = 1 then mulSchool P Q
    else
      let m2 := max P.length Q.length / 2
      let (highP, lowP) := karatsubaSplit P m2
      let (highQ, lowQ) := karatsubaSplit Q m2
      let z0 := karFuel fuel lowP lowQ
      let z2 := karFuel fuel highP highQ
      let z1 := karFuel fuel (magAdd (trimLimbs lowP) (trimLimbs highP)) (magAdd (trimLimbs lowQ) (trimLimbs highQ))
      let mid := magSub (magSub z1 z2) z0
      toLimbs (val z2 * (2 ^ 64) ^ (2 * m2) + val mid * (2 ^ 64) ^ m2 + val z0)

/-- `kar(P, Q)` (R165): "a model that runs the recursion under fuel can take `m + 2`" (R167). -/
def kar (P Q : List Limb) : List Limb := karFuel (max P.length Q.length + 2) P Q

/-- `MULK rd, rs1, rs2` (R164), interchangeable with MULS (R163). -/
def execMulk (rd rs1 rs2 : Reg) (s : State) : Result :=
  commit rd ((s.value rs1).sign * (s.value rs2).sign * val (kar (s.limbsOf rs1) (s.limbsOf rs2))) s

/-- A signed product: "magnitude by `mul_school`, sign the product of the signs" (R173). -/
def smul (a b : Int) : Int :=
  a.sign * b.sign * val (mulSchool (toLimbs a.natAbs) (toLimbs b.natAbs))

/-- `toom_split(m, k)` (R171): `(m0, m1, m2)` with `B = 2^(64·k)`. -/
def toomSplit (m k : Nat) : Nat × Nat × Nat :=
  let B := 2 ^ (64 * k)
  (m % B, m / B % B, m / B ^ 2)

/-- Five values, at the points 0, 1, −1, −2 and infinity (R172). -/
structure FivePoints where
  at0 : Int
  at1 : Int
  atNeg1 : Int
  atNeg2 : Int
  atInf : Int
  deriving DecidableEq, Repr

/-- The product of Horner's scheme with −2: negation, and the value added to itself (R172 leaves how to the block; log 15). -/
def timesNeg2 (v : Int) : Int := -(sadd v v)

/-- `toom_eval(m0, m1, m2)` (R172): `p(t) = (m2·t + m1)·t + m0` at each point. -/
def toomEval (m0 m1 m2 : Int) : FivePoints where
  at0 := m0
  at1 := sadd (sadd m2 m1) m0
  atNeg1 := sadd (-(sadd (-m2) m1)) m0
  atNeg2 := sadd (timesNeg2 (sadd (timesNeg2 m2) m1)) m0
  atInf := m2

/-- `toom_pointwise` (R173). -/
def toomPointwise (p q : FivePoints) : FivePoints where
  at0 := smul p.at0 q.at0
  at1 := smul p.at1 q.at1
  atNeg1 := smul p.atNeg1 q.atNeg1
  atNeg2 := smul p.atNeg2 q.atNeg2
  atInf := smul p.atInf q.atInf

/-- The exact division by 2 of `toom_interp`: "the right shift of rule R139 by one bit" (R174). -/
def half (v : Int) : Int := v.sign * val (shrMag (toLimbs v.natAbs) 1)

/-- The exact division by 3 of `toom_interp`: rule R141 "applied to a multiple of 3, of either sign" (R174). -/
def third (v : Int) : Int := v.sign * val (div3Mag (toLimbs v.natAbs))

/-- The five coefficients of the product, `r0` to `r4` (R174). -/
structure FiveCoefficients where
  r0 : Int
  r1 : Int
  r2 : Int
  r3 : Int
  r4 : Int
  deriving DecidableEq, Repr

/-- `toom_interp(w)`, Bodrato's sequence line by line (R174; G1 of 93_implementation_defined.md). On the values of a
polynomial of degree at most 4 every division is exact and the result is its coefficients (R176). -/
def toomInterp (w : FivePoints) : FiveCoefficients :=
  let r0 := w.at0
  let r4 := w.atInf
  let r3 := third (sadd w.atNeg2 (-w.at1))
  let r1 := half (sadd w.at1 (-w.atNeg1))
  let r2 := sadd w.atNeg1 (-w.at0)
  let r3 := sadd (sadd (half (sadd r2 (-r3))) r4) r4
  let r2 := sadd (sadd r2 r1) (-r4)
  let r1 := sadd r1 (-r3)
  ⟨r0, r1, r2, r3, r4⟩

/-- `toom_recompose` (R175): Horner in base `B = 2^(64·k)`; the product by `B` is a whole-limb left shift. -/
def toomRecompose (c : FiveCoefficients) (k : Nat) : Int :=
  let B : Int := 2 ^ (64 * k)
  let acc := c.r4
  let acc := sadd (acc * B) c.r3
  let acc := sadd (acc * B) c.r2
  let acc := sadd (acc * B) c.r1
  sadd (acc * B) c.r0

/-- The magnitude that `MULT3` computes from two magnitudes of at most `n` limbs (R170): `k = ceil(n / 3)`. It is
their product (R176). -/
def toomMag (a b n : Nat) : Int :=
  let k := (n + 2) / 3
  let (a0, a1, a2) := toomSplit a k
  let (b0, b1, b2) := toomSplit b k
  toomRecompose (toomInterp (toomPointwise (toomEval a0 a1 a2) (toomEval b0 b1 b2))) k

/-- `MULT3 rd, rs1, rs2` (R170), interchangeable with MULS (R163). -/
def execMult3 (rd rs1 rs2 : Reg) (s : State) : Result :=
  let a := s.value rs1
  let b := s.value rs2
  if a = 0 ∨ b = 0 then commit rd 0 s
  else commit rd (a.sign * b.sign * toomMag a.natAbs b.natAbs (max (s.len rs1) (s.len rs2))) s

end Sys2Proof.Machine
end

