-- ==== Sys2Proof/Machine/NumberTheory.lean ====
section
/-! DEFINITION. Lehmer-accelerated GCD (46_gcd.md R231 to R233) and the command GCD (R230). -/

namespace Sys2Proof.Machine

/-- The cofactors and the two proxies of one Lehmer step (R232). -/
structure Proxies where
  ut : Int
  vt : Int
  AA : Int
  BB : Int
  CC : Int
  DD : Int
  deriving DecidableEq, Repr

/-- The loop on the proxies (R232), under fuel: it goes on "as long as the quotient estimates for both proxy pairs agree". The fuel given
in `lehmerStep` is more than Euclid's algorithm can use on 128-bit proxies, and an early end is a valid step all the same (log 12). -/
def proxyLoop : Nat → Proxies → Proxies
  | 0, p => p
  | fuel + 1, p =>
    if p.vt + p.CC = 0 ∨ p.vt + p.DD = 0 then p
    else
      let q := (p.ut + p.AA) / (p.vt + p.CC)
      let q' := (p.ut + p.BB) / (p.vt + p.DD)
      if q ≠ q' then p
      else
        proxyLoop fuel
          { ut := p.vt, vt := p.ut - q * p.vt, AA := p.CC, CC := p.AA - q * p.CC, BB := p.DD, DD := p.BB - q * p.DD }

/-- `lehmer_step(u, v)` for `u ≥ v` with more than two limbs in `v` (R232). Both proxies are cut at the position of the second limb of
`u`. `T` and `U` are formed with the signed adder and the schoolbook multiplier (D30). -/
def lehmerStep (u v : Nat) : Nat × Nat :=
  let n := (toLimbs u).length
  let cut := 2 ^ (64 * (n - 2))
  let p := proxyLoop 260 { ut := (u / cut : Nat), vt := (v / cut : Nat), AA := 1, BB := 0, CC := 0, DD := 1 }
  if p.BB = 0 then (v, (floorMod u v).toNat)
  else ((sadd (smul p.AA u) (smul p.BB v)).toNat, (sadd (smul p.CC u) (smul p.DD v)).toNat)

/-- The two phases of `gcd_mag` (R231, R233) under fuel: a Lehmer step while the smaller operand has more than two limbs, a plain
remainder step after that, until the smaller is zero. -/
def gcdLoop : Nat → Nat → Nat → Nat
  | 0, u, _ => u
  | fuel + 1, u, v =>
    if (toLimbs v).length > 2 then
      let (u', v') := lehmerStep u v
      gcdLoop fuel u' v'
    else if v = 0 then u
    else gcdLoop fuel v (floorMod u v).toNat

/-- `gcd_mag(p, q)` (R231): the larger operand first; "a model that needs a fuel bound can take `128·limb_count(v) + 2` outer steps (Lehmer
and fallback together)" (R234; log 12). -/
def gcdMag (p q : Nat) : Nat :=
  let (u, v) := if magCmp (toLimbs p) (toLimbs q) = .neg then (q, p) else (p, q)
  gcdLoop (128 * (toLimbs v).length + 2) u v

/-- `GCD rd, rs1, rs2` (R230): on magnitudes; the result is never negative. -/
def execGcd (rd rs1 rs2 : Reg) (s : State) : Result :=
  commit rd (gcdMag (s.value rs1).natAbs (s.value rs2).natAbs) s

end Sys2Proof.Machine
end

