-- ==== Sys2Proof/Machine/Representation.lean ====
section
/-! DEFINITION. The representation command (41_representation.md R123). `trim` (R120) is in Limbs.lean. -/

namespace Sys2Proof.Machine

/-- The bit length on the limb layout: "`64·(len − 1)` plus the position of the highest 1 bit of the leading limb counted from 1", 0
for zero (R123). -/
def limbBitlen : List Limb → Nat
  | [] => 0
  | top :: L => 64 * L.length + bitlen top.toNat

/-- `BITLEN rs1` (R123): the sign is ignored. -/
def execBitlen (rs1 : Reg) (s : State) : Result := answer (BitVec.ofNat 64 (limbBitlen (s.limbsOf rs1))) s

end Sys2Proof.Machine
end

