-- ==== Sys2Proof/Machine/Dispatch.lean ====
section
/-! DEFINITION. The dispatch: one arm per command (30_encoding.md R74). -/

namespace Sys2Proof.Machine

def exec (i : Instr) (s : State) : Host.Outcome State Fault Refusal :=
  match i with
  | .nop => Sys2Proof.Machine.execNop s
  | .clr rd => Sys2Proof.Machine.execClr rd s
  | .copy rd rs1 => Sys2Proof.Machine.execCopy rd rs1 s
  | .ldi rd => Sys2Proof.Machine.execLdi rd s
  | .pushl rd => Sys2Proof.Machine.execPushl rd s
  | .neg rd rs1 => Sys2Proof.Machine.execNeg rd rs1 s
  | .rdl rs1 => Sys2Proof.Machine.execRdl rs1 s
  | .rdlen rs1 => Sys2Proof.Machine.execRdlen rs1 s
  | .rdsgn rs1 => Sys2Proof.Machine.execRdsgn rs1 s
  | .rdst => Sys2Proof.Machine.execRdst s
  | .clrf => Sys2Proof.Machine.execClrf s
  | .bitlen rs1 => Sys2Proof.Machine.execBitlen rs1 s
  | .add rd rs1 rs2 => Sys2Proof.Machine.execAdd rd rs1 rs2 s
  | .sub rd rs1 rs2 => Sys2Proof.Machine.execSub rd rs1 rs2 s
  | .cmp rs1 rs2 => Sys2Proof.Machine.execCmp rs1 rs2 s
  | .shr rd rs1 => Sys2Proof.Machine.execShr rd rs1 s
  | .div3 rd rs1 => Sys2Proof.Machine.execDiv3 rd rs1 s
  | .pow2 rd => Sys2Proof.Machine.execPow2 rd s
  | .muls rd rs1 rs2 => Sys2Proof.Machine.execMuls rd rs1 rs2 s
  | .mulk rd rs1 rs2 => Sys2Proof.Machine.execMulk rd rs1 rs2 s
  | .mult3 rd rs1 rs2 => Sys2Proof.Machine.execMult3 rd rs1 rs2 s
  | .div rd rd2 rs1 rs2 => Sys2Proof.Machine.execDiv rd rd2 rs1 rs2 s
  | .mod rd rs1 rs2 => Sys2Proof.Machine.execMod rd rs1 rs2 s
  | .montmul rd rs1 rs2 rs3 => Sys2Proof.Machine.execMontmul rd rs1 rs2 rs3 s
  | .modexp rd rd2 rs1 rs2 rs3 => Sys2Proof.Machine.execModexp rd rd2 rs1 rs2 rs3 s
  | .gcd rd rs1 rs2 => Sys2Proof.Machine.execGcd rd rs1 rs2 s

end Sys2Proof.Machine
end

