-- ==== Sys2Proof/Machine/Port.lean ====
section
/-! DEFINITION. What the port does with the host's next act (30_encoding.md R70; 40_data_movement.md R111; 70_reset_and_hazards.md R270,
R271). One act is one step (log 8). -/

namespace Sys2Proof.Machine

/-- A command word is executed: "Decode the word; if illegal, `raise IllegalCommand`" (R111 step 1, R247), else the command's meaning. -/
def runWord (w : CmdWord) (s : State) : Result :=
  match decode w with
  | .ok i => exec i s
  | .error _ => throwErr .illegalCommand s

/-- The host's next act: a command is accepted, executed and answered; a reset puts the block in the reset state; with nothing presented
the block waits (log 9). -/
def serve (s : State) : Result :=
  match s.pending with
  | [] => .next s.idle
  | .cmd w a :: rest => runWord w (s.accept a rest)
  | .rst :: rest => .next (s.resetTo rest)

/-- The state with a command put before everything the host has yet to present. -/
def State.present (s : State) (w : CmdWord) (a : Scalar) : State := { s with pending := .cmd w a :: s.pending }

end Sys2Proof.Machine
end

