-- ==== Sys2Proof/Machine/Step.lean ====
section
/-! DEFINITION. One step of the machine, and how a test puts a command before it. -/

namespace Sys2Proof.Machine

/-- One transaction at the port (R56, R70). -/
def step (s : State) : Host.Outcome State Fault Refusal := serve s

/-- `s` with the command word `w` (its bits from `nbits` up 0) as the next thing the host presents, with `arg = 0`: KBC has no program
counter and no fetch, the host sequences commands (R25; log 2). -/
def State.withFetchWord (s : State) (nbits w : Nat) : State := s.present (BitVec.ofNat 32 (w % 2 ^ nbits)) 0

end Sys2Proof.Machine
end

