-- ==== Sys2Proof/Machine/Pseudo.lean ====
section
/-! DEFINITION. The assembler's lines (30_encoding.md R79) and the pseudo-instructions (R80): notation for the host's lists of commands. The
machine knows nothing of them. A line is taken as its parts; how its characters are split is left out (log 22). -/

namespace Sys2Proof.Machine

/-- The three pseudo-instructions of R80. -/
inductive Pseudo where
  | mov (rd rs : Reg)
  | ldn (rd : Reg) (v : Int)
  | sqrk (rd rs : Reg)
  deriving DecidableEq, Repr

/-- The expansion of R80: commands with their scalars; "When a command does not use `arg`, the assembler sends `arg = 0`" (R79). -/
def Pseudo.expand : Pseudo → List (Instr × Scalar)
  | .mov rd rs => [(.copy rd rs, 0)]
  | .ldn rd v =>
    (.clr rd, 0) :: (toLimbs v.natAbs).map (fun d => (.pushl rd, d)) ++ (if v < 0 then [(.neg rd rd, 0)] else [])
  | .sqrk rd rs => [(.mulk rd rs rs, 0)]

/-- The command of a mnemonic and its registers "in the order destination registers (`rd`, then `rd2`), then source registers (`rs1`, `rs2`,
`rs3`)" (R79); none where their number is wrong. -/
def commandOfRegs : Opcode → List Reg → Option Instr
  | .nop, [] => some .nop
  | .clr, [rd] => some (.clr rd)
  | .copy, [rd, rs1] => some (.copy rd rs1)
  | .ldi, [rd] => some (.ldi rd)
  | .pushl, [rd] => some (.pushl rd)
  | .neg, [rd, rs1] => some (.neg rd rs1)
  | .rdl, [rs1] => some (.rdl rs1)
  | .rdlen, [rs1] => some (.rdlen rs1)
  | .rdsgn, [rs1] => some (.rdsgn rs1)
  | .rdst, [] => some .rdst
  | .clrf, [] => some .clrf
  | .bitlen, [rs1] => some (.bitlen rs1)
  | .add, [rd, rs1, rs2] => some (.add rd rs1 rs2)
  | .sub, [rd, rs1, rs2] => some (.sub rd rs1 rs2)
  | .cmp, [rs1, rs2] => some (.cmp rs1 rs2)
  | .shr, [rd, rs1] => some (.shr rd rs1)
  | .div3, [rd, rs1] => some (.div3 rd rs1)
  | .pow2, [rd] => some (.pow2 rd)
  | .muls, [rd, rs1, rs2] => some (.muls rd rs1 rs2)
  | .mulk, [rd, rs1, rs2] => some (.mulk rd rs1 rs2)
  | .mult3, [rd, rs1, rs2] => some (.mult3 rd rs1 rs2)
  | .div, [rd, rd2, rs1, rs2] => some (.div rd rd2 rs1 rs2)
  | .mod, [rd, rs1, rs2] => some (.mod rd rs1 rs2)
  | .montmul, [rd, rs1, rs2, rs3] => some (.montmul rd rs1 rs2 rs3)
  | .modexp, [rd, rd2, rs1, rs2, rs3] => some (.modexp rd rd2 rs1 rs2 rs3)
  | .gcd, [rd, rs1, rs2] => some (.gcd rd rs1 rs2)
  | _, _ => none

/-- The mnemonics with an operand `#value` (R73, R79). -/
def takesValue (o : Opcode) : Bool := decide (o ∈ [Opcode.ldi, .pushl, .rdl, .shr, .pow2])

/-- A line of R79, by its parts. -/
inductive Line where
  | command (o : Opcode) (regs : List Reg) (value : Option Nat)
  | pseudo (p : Pseudo)
  deriving DecidableEq, Repr

/-- What a line stands for: `value` is "an unsigned integer below `2^64`", and there exactly when the command uses `arg` (R79). -/
def Line.assemble : Line → Option (List (Instr × Scalar))
  | .pseudo p => some p.expand
  | .command o regs value =>
    (commandOfRegs o regs).bind fun i =>
      match takesValue o, value with
      | true, some v => if v < 2 ^ 64 then some [(i, BitVec.ofNat 64 v)] else none
      | false, none => some [(i, 0)]
      | _, _ => none

/-- The state with a pseudo-instruction's commands put before everything the host has yet to present. -/
def State.presentPseudo (s : State) (p : Pseudo) : State :=
  { s with pending := p.expand.map (fun c => HostEvent.cmd (encode c.1) c.2) ++ s.pending }

end Sys2Proof.Machine
end

