-- ==== Sys2Proof/Safety.lean ====
section
/-! DEFINITION. What claims are stated in: the spec's tables of fields, operands and errors (30_encoding.md R72, R73, R75; 10_state.md R29;
60_exceptions.md R254), the product polynomial of Toom-Cook-3 (43_multiplication.md R176), the invariant of the state (10_state.md R22, R26, R27), and what a command leaves behind when it succeeds, answers,
writes, or raises (40_data_movement.md R111; 60_exceptions.md R246, R249). The model itself uses none of it. -/

namespace Sys2Proof

/-! ### Words -/

/-- Which register fields a format uses. -/
structure FieldUse where
  rd : Bool := false
  rs1 : Bool := false
  rs2 : Bool := false
  rs3 : Bool := false
  rd2 : Bool := false
  deriving DecidableEq, Repr

/-- The "fields used" column of R72. -/
def Format.uses : Format → FieldUse
  | .F0 => {}
  | .FD => { rd := true }
  | .FS => { rs1 := true }
  | .FDS => { rd := true, rs1 := true }
  | .FSS => { rs1 := true, rs2 := true }
  | .FDSS => { rd := true, rs1 := true, rs2 := true }
  | .FDDSS => { rd := true, rd2 := true, rs1 := true, rs2 := true }
  | .FDSSS => { rd := true, rs1 := true, rs2 := true, rs3 := true }
  | .FDDSSS => { rd := true, rd2 := true, rs1 := true, rs2 := true, rs3 := true }

/-- "A field the format does not use must be 0, as must `zero`" (R72). -/
abbrev Fields.UnusedZero (f : Fields) (u : FieldUse) : Prop :=
  (u.rd = false → f.rd = 0) ∧ (u.rs1 = false → f.rs1 = 0) ∧ (u.rs2 = false → f.rs2 = 0) ∧ (u.rs3 = false → f.rs3 = 0) ∧
  (u.rd2 = false → f.rd2 = 0) ∧ f.zero = 0

/-- The four grounds of R75 on which a word is illegal. -/
abbrev Illegal (w : CmdWord) : Prop :=
  (∀ o : Opcode, o.byte ≠ (Fields.ofWord w).op) ∨
  ∃ o : Opcode, o.byte = (Fields.ofWord w).op ∧
    (¬ (Fields.ofWord w).UnusedZero o.format.uses ∨ (o = .div ∨ o = .modexp) ∧ (Fields.ofWord w).rd = (Fields.ofWord w).rd2)

/-- The word with these fields, written out in the layout of R71: `op rd rs1 rs2 rs3 rd2 zero`; a field that is not named is 0. -/
abbrev layout (op : BitVec 8) (rd rs1 rs2 rs3 rd2 : Reg := 0) : CmdWord :=
  op ++ regBits rd ++ regBits rs1 ++ regBits rs2 ++ regBits rs3 ++ regBits rd2 ++ (0 : BitVec 4)

/-- The word with these fields decodes to `i`. -/
abbrev Encoded (i : Instr) (op : BitVec 8) (rd rs1 rs2 rs3 rd2 : Reg := 0) : Prop :=
  decode (layout op rd rs1 rs2 rs3 rd2) = .ok i

/-! ### The tables of R29, R73 and R254 -/

/-- The registers a command reads (R29). -/
def Instr.sources : Instr → List Reg
  | .nop | .rdst | .clrf | .clr _ | .ldi _ | .pow2 _ => []
  | .pushl rd => [rd]
  | .copy _ rs1 | .neg _ rs1 | .shr _ rs1 | .div3 _ rs1 | .rdl rs1 | .rdlen rs1 | .rdsgn rs1 | .bitlen rs1 => [rs1]
  | .cmp rs1 rs2 | .add _ rs1 rs2 | .sub _ rs1 rs2 | .muls _ rs1 rs2 | .mulk _ rs1 rs2 | .mult3 _ rs1 rs2
  | .mod _ rs1 rs2 | .gcd _ rs1 rs2 | .div _ _ rs1 rs2 => [rs1, rs2]
  | .montmul _ rs1 rs2 rs3 | .modexp _ _ rs1 rs2 rs3 => [rs1, rs2, rs3]

/-- The registers a command writes (R29). -/
def Instr.destinations : Instr → List Reg
  | .nop | .rdst | .clrf | .rdl _ | .rdlen _ | .rdsgn _ | .bitlen _ | .cmp _ _ => []
  | .clr rd | .ldi rd | .pow2 rd | .pushl rd | .copy rd _ | .neg rd _ | .shr rd _ | .div3 rd _ | .add rd _ _ | .sub rd _ _
  | .muls rd _ _ | .mulk rd _ _ | .mult3 rd _ _ | .mod rd _ _ | .gcd rd _ _ | .montmul rd _ _ _ => [rd]
  | .div rd rd2 _ _ | .modexp rd rd2 _ _ _ => [rd, rd2]

/-- The commands that use `arg` (R73). -/
def Instr.usesArg : Instr → Bool
  | .ldi _ | .pushl _ | .rdl _ | .shr _ _ | .pow2 _ => true
  | .nop | .clr _ | .copy _ _ | .neg _ _ | .rdlen _ | .rdsgn _ | .rdst | .clrf | .bitlen _ | .add _ _ _ | .sub _ _ _ | .cmp _ _
  | .div3 _ _ | .muls _ _ _ | .mulk _ _ _ | .mult3 _ _ _ | .div _ _ _ _ | .mod _ _ _ | .montmul _ _ _ _ | .modexp _ _ _ _ _
  | .gcd _ _ _ => false

/-- The commands that set `res` (R73). -/
def Instr.setsRes : Instr → Bool
  | .rdl _ | .rdlen _ | .rdsgn _ | .rdst | .bitlen _ | .cmp _ _ => true
  | .nop | .clr _ | .copy _ _ | .ldi _ | .pushl _ | .neg _ _ | .clrf | .add _ _ _ | .sub _ _ _ | .shr _ _ | .div3 _ _ | .pow2 _
  | .muls _ _ _ | .mulk _ _ _ | .mult3 _ _ _ | .div _ _ _ _ | .mod _ _ _ | .montmul _ _ _ _ | .modexp _ _ _ _ _ | .gcd _ _ _ => false

namespace Machine

/-- The errors a decoded command can raise, by the table of R254. -/
def mayRaise : Instr → List Err
  | .nop | .clr _ | .copy _ _ | .ldi _ | .neg _ _ | .rdlen _ | .rdsgn _ | .rdst | .clrf | .bitlen _ | .cmp _ _ | .shr _ _
  | .div3 _ _ | .gcd _ _ _ => []
  | .pushl _ | .add _ _ _ | .sub _ _ _ | .pow2 _ | .muls _ _ _ | .mulk _ _ _ | .mult3 _ _ _ => [.allocationFailed]
  | .rdl _ | .montmul _ _ _ _ | .modexp _ _ _ _ _ => [.badInputData]
  | .div _ _ _ _ | .mod _ _ _ => [.divisionByZero]

/-- The one undefined case (93_implementation_defined.md U1): a `DIV3` of a value that 3 does not divide. -/
abbrev InexactDiv3 (i : Instr) (s : State) : Prop := ∃ rd rs1 : Reg, i = .div3 rd rs1 ∧ ¬ (3 : Int) ∣ s.value rs1

/-! ### The product polynomial of Toom-Cook-3 (R173, R176) -/

/-- `r(t) = r4·t^4 + r3·t^3 + r2·t^2 + r1·t + r0` (R173). -/
def FiveCoefficients.eval (c : FiveCoefficients) (t : Int) : Int :=
  c.r4 * t ^ 4 + c.r3 * t ^ 3 + c.r2 * t ^ 2 + c.r1 * t + c.r0

/-- The values of `r` at the five points; at infinity, its leading coefficient (R172, R173). -/
def FiveCoefficients.points (c : FiveCoefficients) : FivePoints where
  at0 := c.eval 0
  at1 := c.eval 1
  atNeg1 := c.eval (-1)
  atNeg2 := c.eval (-2)
  atInf := c.r4

/-! ### States -/

/-- The invariants (1) to (4) of R22 for one register, with `MAXLIMBS = cap`: zero exactly with no limbs, a nonzero leading limb, at
most `cap` limbs. -/
def BigInt.wf (cap : Nat) (b : BigInt) : Bool :=
  (decide (b.sign = .zero) == decide (b.limbs = [])) && decide (b.limbs.head? ≠ some 0) && decide (b.limbs.length ≤ cap)

/-- The legal values of the error fields (R27), and "0 while `FAULT = 0`" for `FIRSTERR` (R26). -/
def Status.wf (t : Status) : Bool :=
  t.lastErr.legal && t.firstErr.legal && (decide (t.firstErr = .none) == !t.fault)

/-- The invariant of the machine: the parameter in its range (R7), every register canonical and within capacity (R22), the status register
legal (R26, R27). -/
abbrev State.Inv (s : State) : Prop :=
  s.cfg.wf = true ∧ (∀ r : Reg, (s.reg r).wf s.cfg.maxLimbs = true) ∧ s.status.wf = true

/-- Everything beside the registers, `STATUS` and the response is as before: the parameter, the scalar of the command, what the host
does next, the free values. -/
abbrev SameRest (s t : State) : Prop :=
  t.cfg = s.cfg ∧ t.arg = s.arg ∧ t.pending = s.pending ∧ t.freeCount = s.freeCount

/-- A command other than `RDST` ended without an error (R246): `LASTERR = 0`, `FAULT`, `FIRSTERR` and `CMP` as before, the response is
`(0, res)`. -/
abbrev Succeeded (s t : State) (res : Scalar) : Prop :=
  t.status = { s.status with lastErr := .none } ∧ t.rsp = some ⟨.none, res⟩ ∧ SameRest s t

/-- The registers are as before. -/
abbrev SameRegs (s t : State) : Prop := ∀ r : Reg, t.reg r = s.reg r

/-- A command that writes no register succeeded with the scalar result `res`. -/
abbrev Answered (s t : State) (res : Scalar) : Prop := SameRegs s t ∧ Succeeded s t res

/-- A command with one destination succeeded: `x[rd]` is the canonical form of `v` within the capacity (R12, R22), every other register is
as before, and `res = 0`. -/
abbrev Wrote (s t : State) (rd : Reg) (v : Int) : Prop :=
  t.value rd = v ∧ (t.reg rd).wf s.cfg.maxLimbs = true ∧ (∀ r : Reg, r ≠ rd → t.reg r = s.reg r) ∧ Succeeded s t 0

/-- A command with two destinations succeeded. -/
abbrev WroteTwo (s t : State) (rd : Reg) (v : Int) (rd2 : Reg) (v2 : Int) : Prop :=
  t.value rd = v ∧ (t.reg rd).wf s.cfg.maxLimbs = true ∧ t.value rd2 = v2 ∧ (t.reg rd2).wf s.cfg.maxLimbs = true ∧
  (∀ r : Reg, r ≠ rd → r ≠ rd2 → t.reg r = s.reg r) ∧ Succeeded s t 0

/-- A command raised `e` (R246, R249): no register and not `CMP` changed, `LASTERR = e`, `FAULT = 1`, `FIRSTERR = e` if `FAULT` was 0 and
as before otherwise, the response is `(e, 0)`. -/
abbrev Raised (s t : State) (e : Err) : Prop :=
  SameRegs s t ∧
  t.status = ⟨e, true, if s.status.fault then s.status.firstErr else e, s.status.cmp⟩ ∧
  t.rsp = some ⟨e, 0⟩ ∧ SameRest s t

/-- `v` fits a register of `s`: `abs(v) < β^MAXLIMBS` (R23). -/
abbrev Fits (s : State) (v : Int) : Prop := v.natAbs < (2 ^ 64) ^ s.cfg.maxLimbs

end Machine

end Sys2Proof
end

