-- ==== Sys2Proof/Certificates/Slice0/Obligations.lean ====
section
/-! DEFINITION. The statements about KBC, one per obligation of OBLIGATIONS.json. -/

section

open Sys2Proof Sys2Proof.Machine

/-! ### Reset (10_state.md R32; 70_reset_and_hazards.md R270) -/

/-- R32: what reset leaves, for a machine of any capacity. -/
def Obligations.ResetState : Prop :=
  ∀ s : State, (s = State.reset ∨ ∃ n, s = State.resetWith n) →
    (∀ r : Reg, (s.reg r).sign.code = 0b00 ∧ s.len r = 0 ∧ s.limbsOf r = [] ∧ s.value r = 0) ∧
    s.status.lastErr.code = 0 ∧ s.status.fault = false ∧ s.status.firstErr.code = 0 ∧ s.status.cmp.code = 0b00 ∧ s.status.word = 0

/-- R22, R32: the invariant holds after reset, for every capacity R7 allows. That `State.reset` carries the capacity `2^32` is the
model's choice (log 1); the first clause does not rest on it. -/
def Obligations.ResetInvariant : Prop :=
  (∀ n, 1 ≤ n → n ≤ 2 ^ 32 → (State.resetWith n).Inv) ∧ State.reset.Inv

/-- R270: a reset at the port. That the host's acts stand in `pending` is the model's choice (log 2, log 10). -/
def Obligations.ResetEvent : Prop :=
  ∀ (s : State) (rest : List HostEvent), s.pending = .rst :: rest →
    ∃ t, step s = .next t ∧ (∀ r : Reg, t.reg r = ⟨.zero, []⟩) ∧ t.status = ⟨.none, false, .none, .zero⟩ ∧ t.status.word = 0 ∧
      t.rsp = none ∧ t.cfg = s.cfg ∧ t.pending = rest

/-! ### The invariant (10_state.md R22, R26, R27) -/

/-- R22, R26, R27: from every state within the invariant a step answers a next state within it. The free values of an inexact `DIV3`
are kept within the same limits, which is the model's choice (log 6). -/
def Obligations.StepKeepsInvariant : Prop :=
  ∀ s : State, s.Inv → ∃ t, step s = .next t ∧ t.Inv

/-! ### The port and the decoder (30_encoding.md) -/

/-- R70, R77, R111 step 1: a step runs the command that the decoder reads from the presented word, with its scalar, and gives any other
word to the same entry; the step itself only takes the command off the host's list (log 2) and sets `arg` (log 3). -/
def Obligations.StepRunsDecodedCommand : Prop :=
  (∀ (s : State) (w : CmdWord) (a : Scalar) (rest : List HostEvent) (i : Instr), s.pending = .cmd w a :: rest → decode w = .ok i →
    step s = exec i { s with arg := a, pending := rest }) ∧
  (∀ (s : State) (w : CmdWord) (a : Scalar) (rest : List HostEvent), s.pending = .cmd w a :: rest →
    step s = runWord w { s with arg := a, pending := rest }) ∧
  (∀ (s : State) (w : CmdWord) (i : Instr), decode w = .ok i → step (s.withFetchWord 32 w.toNat) = exec i { s with arg := 0 })

/-- R75: an illegal word raises `IllegalCommand`, code 6. -/
def Obligations.IllegalWordRaises : Prop :=
  Err.illegalCommand.code = 6 ∧
  ∀ (s : State) (w : CmdWord), Illegal w → ∃ t, runWord w s = .next t ∧ Raised s t .illegalCommand

/-- R75, R77: the decoder accepts exactly the words that are not illegal. -/
def Obligations.DecodesExactlyLegalWords : Prop :=
  ∀ w : CmdWord, (∃ i, decode w = .ok i) ↔ ¬ Illegal w

/-- R71, R72, R74, R76: decoding the word of a well-formed command gives the command back. -/
def Obligations.DecodeOfEncode : Prop :=
  ∀ i : Instr, i.wf = true → decode (encode i) = .ok i

/-- R71, R72, R74, R76: a decoded command is well formed and its word is the one decoded. -/
def Obligations.EncodeOfDecode : Prop :=
  ∀ (w : CmdWord) (i : Instr), decode w = .ok i → i.wf = true ∧ encode i = w

/-- R81: the encoding examples. -/
def Obligations.EncodingExamples : Prop :=
  decode 0x00000000 = .ok .nop ∧ decode 0x01500000 = .ok (.clr 5) ∧ decode 0x02210000 = .ok (.copy 2 1) ∧
  decode 0x20312000 = .ok (.add 3 1 2) ∧ decode 0x22012000 = .ok (.cmp 1 2) ∧ decode 0x31312000 = .ok (.mulk 3 1 2) ∧
  decode 0x40412050 = .ok (.div 4 5 1 2) ∧ decode 0x50312900 = .ok (.montmul 3 1 2 9) ∧
  decode 0x51612370 = .ok (.modexp 6 7 1 2 3) ∧ decode 0x600FF000 = .ok (.gcd 0 15 15) ∧
  decode 0x20312001 = .error .nonzeroField ∧ decode 0x20312100 = .error .nonzeroField ∧
  decode 0x40412040 = .error .sameDestination ∧ decode 0x0B000000 = .error .unassignedOpcode ∧
  decode 0xFFFFFFFF = .error .unassignedOpcode

/-- R72: the mask of a format tests the opcode and the fields the format does not use, and nothing else keeps a word from being a
command of that format but `rd = rd2` of a two-destination command (R76). -/
def Obligations.FormatMasks : Prop :=
  ∀ (w : CmdWord) (o : Opcode),
    (w &&& o.format.mask = o.byte.zeroExtend 32 <<< 24 ↔ (Fields.ofWord w).op = o.byte ∧ (Fields.ofWord w).UnusedZero o.format.uses) ∧
    (w &&& o.format.mask = o.byte.zeroExtend 32 <<< 24 ↔
      (∃ i, decode w = .ok i ∧ i.opcode = o) ∨
      ((o = .div ∨ o = .modexp) ∧ (Fields.ofWord w).op = o.byte ∧ decode w = .error .sameDestination))

/-! ### Data movement and status (40_data_movement.md) -/

/-- R100. -/
def Obligations.NopSetsOnlyLasterr : Prop :=
  Encoded .nop 0x00 ∧ ∀ s : State, ∃ t, exec .nop s = .next t ∧ Answered s t 0

/-- R101. -/
def Obligations.ClrWritesZero : Prop :=
  ∀ rd : Reg, Encoded (.clr rd) 0x01 (rd := rd) ∧
    ∀ s : State, ∃ t, exec (.clr rd) s = .next t ∧ Wrote s t rd 0 ∧ t.reg rd = ⟨.zero, []⟩

/-- R102: the copy has storage of its own, so that a later write of another register leaves it alone. -/
def Obligations.CopyCopiesValue : Prop :=
  ∀ rd rs1 : Reg, Encoded (.copy rd rs1) 0x02 (rd := rd) (rs1 := rs1) ∧
    ∀ s : State, s.Inv → ∃ t, exec (.copy rd rs1) s = .next t ∧ Wrote s t rd (s.value rs1) ∧ t.reg rd = s.reg rs1 ∧
      ∀ (r : Reg) (b : BigInt), r ≠ rd → (t.setReg r b).reg rd = s.reg rs1

/-- R103. -/
def Obligations.LdiLoadsScalar : Prop :=
  ∀ rd : Reg, Encoded (.ldi rd) 0x03 (rd := rd) ∧
    ∀ s : State, s.Inv → ∃ t, exec (.ldi rd) s = .next t ∧ Wrote s t rd s.arg.toNat ∧
      t.reg rd = if s.arg = 0 then ⟨.zero, []⟩ else ⟨.pos, [s.arg]⟩

/-- R104. -/
def Obligations.PushlAppendsLimb : Prop :=
  ∀ rd : Reg, Encoded (.pushl rd) 0x04 (rd := rd) ∧
    ∀ s : State, s.Inv →
      (s.value rd ≠ 0 ∧ s.len rd = s.cfg.maxLimbs → ∃ t, exec (.pushl rd) s = .next t ∧ Raised s t .allocationFailed) ∧
      (¬ (s.value rd ≠ 0 ∧ s.len rd = s.cfg.maxLimbs) →
        ∃ t, exec (.pushl rd) s = .next t ∧
          Wrote s t rd ((if s.value rd < 0 then -1 else 1) * ((s.value rd).natAbs * 2 ^ 64 + s.arg.toNat)) ∧
          t.limbsOf rd = if s.value rd = 0 ∧ s.arg = 0 then [] else s.limbsOf rd ++ [s.arg])

/-- R105. -/
def Obligations.NegNegates : Prop :=
  ∀ rd rs1 : Reg, Encoded (.neg rd rs1) 0x05 (rd := rd) (rs1 := rs1) ∧
    ∀ s : State, s.Inv → ∃ t, exec (.neg rd rs1) s = .next t ∧ Wrote s t rd (-s.value rs1) ∧ t.limbsOf rd = s.limbsOf rs1

/-- R106. -/
def Obligations.RdlReadsLimb : Prop :=
  ∀ rs1 : Reg, Encoded (.rdl rs1) 0x06 (rs1 := rs1) ∧
    ∀ s : State,
      (∀ d : Limb, (s.limbsOf rs1)[s.arg.toNat]? = some d → ∃ t, exec (.rdl rs1) s = .next t ∧ Answered s t d) ∧
      (s.len rs1 ≤ s.arg.toNat → ∃ t, exec (.rdl rs1) s = .next t ∧ Raised s t .badInputData)

/-- R107. -/
def Obligations.RdlenReadsLength : Prop :=
  ∀ rs1 : Reg, Encoded (.rdlen rs1) 0x07 (rs1 := rs1) ∧
    ∀ s : State, s.Inv → ∃ t v, exec (.rdlen rs1) s = .next t ∧ Answered s t v ∧ v.toNat = s.len rs1

/-- R108. -/
def Obligations.RdsgnReadsSign : Prop :=
  ∀ rs1 : Reg, Encoded (.rdsgn rs1) 0x08 (rs1 := rs1) ∧
    ∀ s : State, s.Inv → ∃ t v, exec (.rdsgn rs1) s = .next t ∧ Answered s t v ∧
      v = if s.value rs1 = 0 then 0 else if s.value rs1 > 0 then 1 else 3

/-- R109: `STATUS` field by field, at the bits of R26; nothing of the state changes but the response. -/
def Obligations.RdstReadsStatus : Prop :=
  Encoded .rdst 0x09 ∧ decode 0x09100000 = .error .nonzeroField ∧
    ∀ s : State, ∃ v : Scalar, exec .rdst s = .next { s with rsp := some ⟨.none, v⟩ } ∧
      v.extractLsb' 0 4 = s.status.lastErr.code ∧ v.extractLsb' 4 1 = BitVec.ofBool s.status.fault ∧ v.extractLsb' 5 3 = 0 ∧
      v.extractLsb' 8 4 = s.status.firstErr.code ∧ v.extractLsb' 12 2 = s.status.cmp.code ∧ v.extractLsb' 14 50 = 0

/-- R110. -/
def Obligations.ClrfClearsRecord : Prop :=
  Encoded .clrf 0x0A ∧
    ∀ s : State, ∃ t, exec .clrf s = .next t ∧ SameRegs s t ∧ t.status = ⟨.none, false, .none, s.status.cmp⟩ ∧
      t.rsp = some ⟨.none, 0⟩ ∧ SameRest s t

/-- R80: the commands that `LDN` stands for, run one by one, load any integer that fits, and leave everything of the host's after them. The
list of what is presented is the model's (log 2). -/
def Obligations.LdnLoadsInteger : Prop :=
  ∀ (s : State) (rd : Reg) (v : Int), s.Inv → Fits s v →
    ∃ t, Host.Core.run Sys2Proof.core (Pseudo.ldn rd v).expand.length (s.presentPseudo (.ldn rd v)) = .next t ∧
      t.reg rd = BigInt.ofInt v ∧ (∀ r : Reg, r ≠ rd → t.reg r = s.reg r) ∧ t.pending = s.pending ∧ t.rsp = some ⟨.none, 0⟩

/-! ### Representation (41_representation.md) -/

/-- R123, with `bitlen` as R9 defines it. -/
def Obligations.BitlenCountsBits : Prop :=
  ∀ rs1 : Reg, Encoded (.bitlen rs1) 0x10 (rs1 := rs1) ∧
    ∀ s : State, s.Inv → ∃ t v, exec (.bitlen rs1) s = .next t ∧ Answered s t v ∧
      ∀ k : Nat, v.toNat ≤ k ↔ (s.value rs1).natAbs < 2 ^ k

/-! ### Linear arithmetic (42_linear_arithmetic.md) -/

/-- R134. -/
def Obligations.AddIsExact : Prop :=
  ∀ rd rs1 rs2 : Reg, Encoded (.add rd rs1 rs2) 0x20 (rd := rd) (rs1 := rs1) (rs2 := rs2) ∧
    ∀ s : State, s.Inv →
      (Fits s (s.value rs1 + s.value rs2) → ∃ t, exec (.add rd rs1 rs2) s = .next t ∧ Wrote s t rd (s.value rs1 + s.value rs2)) ∧
      (¬ Fits s (s.value rs1 + s.value rs2) →
        (∃ t, exec (.add rd rs1 rs2) s = .next t ∧ Raised s t .allocationFailed) ∧
        0 < s.value rs1 * s.value rs2 ∧ (s.len rs1 = s.cfg.maxLimbs ∨ s.len rs2 = s.cfg.maxLimbs))

/-- R135. -/
def Obligations.SubIsExact : Prop :=
  ∀ rd rs1 rs2 : Reg, Encoded (.sub rd rs1 rs2) 0x21 (rd := rd) (rs1 := rs1) (rs2 := rs2) ∧
    ∀ s : State, s.Inv →
      (Fits s (s.value rs1 - s.value rs2) → ∃ t, exec (.sub rd rs1 rs2) s = .next t ∧ Wrote s t rd (s.value rs1 - s.value rs2)) ∧
      (¬ Fits s (s.value rs1 - s.value rs2) →
        (∃ t, exec (.sub rd rs1 rs2) s = .next t ∧ Raised s t .allocationFailed) ∧ s.value rs1 * s.value rs2 < 0)

/-- R136: also with the destination equal to the first operand, and with equal operands. -/
def Obligations.AdditiveInverse : Prop :=
  ∀ (s : State) (rd rs1 rs2 : Reg), s.Inv → rd ≠ rs2 → Fits s (s.value rs1 + s.value rs2) →
    ∃ t u, exec (.add rd rs1 rs2) s = .next t ∧ exec (.sub rd rd rs2) t = .next u ∧ u.value rd = s.value rs1 ∧
      u.reg rd = s.reg rs1 ∧ ∀ r : Reg, r ≠ rd → u.reg r = s.reg r

/-- R137: the flag and the scalar; everything else as after a success. -/
def Obligations.CmpCompares : Prop :=
  ∀ rs1 rs2 : Reg, Encoded (.cmp rs1 rs2) 0x22 (rs1 := rs1) (rs2 := rs2) ∧
    ∀ s : State, s.Inv →
      ∃ t c, exec (.cmp rs1 rs2) s = .next t ∧
        c = (if s.value rs1 < s.value rs2 then Tri.neg else if s.value rs1 = s.value rs2 then Tri.zero else Tri.pos) ∧
        t.status = { s.status with lastErr := .none, cmp := c } ∧
        t.rsp = some ⟨.none, match c with | .neg => 3 | .zero => 0 | .pos => 1⟩ ∧ SameRegs s t ∧ SameRest s t

/-- R139: the magnitude is shifted and the sign kept; the result is zero when the magnitude becomes zero. -/
def Obligations.ShrShiftsMagnitude : Prop :=
  ∀ rd rs1 : Reg, Encoded (.shr rd rs1) 0x23 (rd := rd) (rs1 := rs1) ∧
    ∀ s : State, s.Inv →
      ∃ t, exec (.shr rd rs1) s = .next t ∧
        Wrote s t rd ((s.value rs1).sign * ((s.value rs1).natAbs / 2 ^ s.arg.toNat : Nat))

/-- R141, the defined case. -/
def Obligations.Div3OfMultiple : Prop :=
  ∀ rd rs1 : Reg, Encoded (.div3 rd rs1) 0x24 (rd := rd) (rs1 := rs1) ∧
    ∀ (s : State) (q : Int), s.Inv → s.value rs1 = 3 * q → ∃ t, exec (.div3 rd rs1) s = .next t ∧ Wrote s t rd q

/-- U1, the undefined case: the command terminates, and what the spec calls unchanged is unchanged. The values it calls undefined are free
(log 5); that the content of `x[rd]` keeps R22 is the model's choice (log 6). -/
def Obligations.Div3OfNonMultiple : Prop :=
  ∀ (rd rs1 : Reg) (s : State), ¬ (3 : Int) ∣ s.value rs1 →
    ∃ t, exec (.div3 rd rs1) s = .next t ∧ (∀ r : Reg, r ≠ rd → t.reg r = s.reg r) ∧ t.status.cmp = s.status.cmp ∧
      (t.reg rd).wf s.cfg.maxLimbs = true ∧ t.cfg = s.cfg ∧ t.arg = s.arg ∧ t.pending = s.pending ∧ t.freeCount = s.freeCount + 1

/-- R143. -/
def Obligations.Pow2BuildsPower : Prop :=
  ∀ rd : Reg, Encoded (.pow2 rd) 0x25 (rd := rd) ∧
    ∀ s : State,
      (s.arg.toNat / 64 + 1 ≤ s.cfg.maxLimbs →
        ∃ t, exec (.pow2 rd) s = .next t ∧ Wrote s t rd (2 ^ s.arg.toNat) ∧
          t.reg rd = ⟨.pos, (1 : Limb) <<< (s.arg.toNat % 64) :: List.replicate (s.arg.toNat / 64) 0⟩) ∧
      (s.arg.toNat / 64 + 1 > s.cfg.maxLimbs → ∃ t, exec (.pow2 rd) s = .next t ∧ Raised s t .allocationFailed)

/-! ### Multiplication (43_multiplication.md) -/

/-- R162 for `MULS`: the exact product, its length, and the one error. -/
def Obligations.MulsMultiplies : Prop :=
  ∀ rd rs1 rs2 : Reg, Encoded (.muls rd rs1 rs2) 0x30 (rd := rd) (rs1 := rs1) (rs2 := rs2) ∧
    ∀ s : State, s.Inv →
      (Fits s (s.value rs1 * s.value rs2) →
        ∃ t, exec (.muls rd rs1 rs2) s = .next t ∧ Wrote s t rd (s.value rs1 * s.value rs2) ∧
          (s.value rs1 ≠ 0 → s.value rs2 ≠ 0 →
            t.len rd = s.len rs1 + s.len rs2 ∨ t.len rd + 1 = s.len rs1 + s.len rs2)) ∧
      (¬ Fits s (s.value rs1 * s.value rs2) → ∃ t, exec (.muls rd rs1 rs2) s = .next t ∧ Raised s t .allocationFailed)

/-- R162, R164 for `MULK`. -/
def Obligations.MulkMultiplies : Prop :=
  ∀ rd rs1 rs2 : Reg, Encoded (.mulk rd rs1 rs2) 0x31 (rd := rd) (rs1 := rs1) (rs2 := rs2) ∧
    ∀ s : State, s.Inv →
      (Fits s (s.value rs1 * s.value rs2) →
        ∃ t, exec (.mulk rd rs1 rs2) s = .next t ∧ Wrote s t rd (s.value rs1 * s.value rs2)) ∧
      (¬ Fits s (s.value rs1 * s.value rs2) → ∃ t, exec (.mulk rd rs1 rs2) s = .next t ∧ Raised s t .allocationFailed)

/-- R162, R170 for `MULT3`. -/
def Obligations.Mult3Multiplies : Prop :=
  ∀ rd rs1 rs2 : Reg, Encoded (.mult3 rd rs1 rs2) 0x32 (rd := rd) (rs1 := rs1) (rs2 := rs2) ∧
    ∀ s : State, s.Inv →
      (Fits s (s.value rs1 * s.value rs2) →
        ∃ t, exec (.mult3 rd rs1 rs2) s = .next t ∧ Wrote s t rd (s.value rs1 * s.value rs2)) ∧
      (¬ Fits s (s.value rs1 * s.value rs2) → ∃ t, exec (.mult3 rd rs1 rs2) s = .next t ∧ Raised s t .allocationFailed)

/-- R163: the three commands give the same destination value, the same error code and the same state, zero operands and operands of
unequal length included. -/
def Obligations.MultipliersInterchangeable : Prop :=
  ∀ (s : State) (rd rs1 rs2 : Reg), s.Inv →
    ∃ t, exec (.muls rd rs1 rs2) s = .next t ∧ exec (.mulk rd rs1 rs2) s = .next t ∧ exec (.mult3 rd rs1 rs2) s = .next t

/-- R176: the split gives back each magnitude at `B`, every division of the interpolation is exact, the interpolation returns the
coefficients of the polynomial whose values it is given, the recomposition evaluates it at `B`, and the whole datapath gives the product. -/
def Obligations.ToomDatapathIsExact : Prop :=
  (∀ m k : Nat, (toomSplit m k).2.2 * (2 ^ (64 * k)) ^ 2 + (toomSplit m k).2.1 * 2 ^ (64 * k) + (toomSplit m k).1 = m) ∧
  (∀ (c : FiveCoefficients) (w : FivePoints), w = c.points →
    w.atNeg2 - w.at1 = 15 * c.r4 - 9 * c.r3 + 3 * c.r2 - 3 * c.r1 ∧ 3 * third (w.atNeg2 - w.at1) = w.atNeg2 - w.at1 ∧
    w.at1 - w.atNeg1 = 2 * (c.r3 + c.r1) ∧ 2 * half (w.at1 - w.atNeg1) = w.at1 - w.atNeg1 ∧
    w.atNeg1 - w.at0 - third (w.atNeg2 - w.at1) = -4 * c.r4 + 2 * c.r3 ∧
    2 * half (w.atNeg1 - w.at0 - third (w.atNeg2 - w.at1)) = w.atNeg1 - w.at0 - third (w.atNeg2 - w.at1) ∧
    toomInterp w = c) ∧
  (∀ (c : FiveCoefficients) (k : Nat), toomRecompose c k = c.eval (2 ^ (64 * k))) ∧
  (∀ (a b : FiveCoefficients), a.r4 = 0 → a.r3 = 0 → b.r4 = 0 → b.r3 = 0 →
    toomPointwise (toomEval a.r0 a.r1 a.r2) (toomEval b.r0 b.r1 b.r2) =
      ⟨a.eval 0 * b.eval 0, a.eval 1 * b.eval 1, a.eval (-1) * b.eval (-1), a.eval (-2) * b.eval (-2), a.r2 * b.r2⟩) ∧
  (∀ a b n : Nat, toomMag a b n = (a * b : Nat))

/-! ### Division (44_division.md) -/

/-- R190: floored quotient and remainder, both destinations together; equal destinations are illegal. -/
def Obligations.DivIsFloored : Prop :=
  (∀ rd rs1 rs2 : Reg, decode (layout 0x40 (rd := rd) (rs1 := rs1) (rs2 := rs2) (rd2 := rd)) = .error .sameDestination) ∧
  ∀ rd rd2 rs1 rs2 : Reg, rd ≠ rd2 → Encoded (.div rd rd2 rs1 rs2) 0x40 (rd := rd) (rs1 := rs1) (rs2 := rs2) (rd2 := rd2) ∧
    ∀ s : State, s.Inv →
      (s.value rs2 ≠ 0 →
        ∃ t, exec (.div rd rd2 rs1 rs2) s = .next t ∧
          WroteTwo s t rd ⌊(s.value rs1 : ℚ) / s.value rs2⌋
            rd2 (s.value rs1 - ⌊(s.value rs1 : ℚ) / s.value rs2⌋ * s.value rs2)) ∧
      (s.value rs2 = 0 → ∃ t, exec (.div rd rd2 rs1 rs2) s = .next t ∧ Raised s t .divisionByZero)

/-- R192, R193: the division law, run on the machine with any of the three multipliers, and the sign of the remainder. The product is
assumed to fit a register; at the edge of the capacity the spec's sequence can fail there (log 18). -/
def Obligations.DivisionLaw : Prop :=
  ∀ (s : State) (q r p a b : Reg), s.Inv → q ≠ r → q ≠ b → r ≠ b → p ≠ r → s.value b ≠ 0 →
    ∃ t, exec (.div q r a b) s = .next t ∧ s.value a = t.value q * s.value b + t.value r ∧
      (t.value r).natAbs < (s.value b).natAbs ∧ (t.value r = 0 ∨ (t.value r).sign = (s.value b).sign) ∧
      (Fits s (t.value q * s.value b) → ∀ m : Instr, m = .muls p q b ∨ m = .mulk p q b ∨ m = .mult3 p q b →
        ∃ u v, exec m t = .next u ∧ exec (.add p p r) u = .next v ∧ v.value p = s.value a)

/-- R191. -/
def Obligations.ModIsFloored : Prop :=
  ∀ rd rs1 rs2 : Reg, Encoded (.mod rd rs1 rs2) 0x41 (rd := rd) (rs1 := rs1) (rs2 := rs2) ∧
    ∀ s : State, s.Inv →
      (s.value rs2 ≠ 0 →
        ∃ t, exec (.mod rd rs1 rs2) s = .next t ∧
          Wrote s t rd (s.value rs1 - ⌊(s.value rs1 : ℚ) / s.value rs2⌋ * s.value rs2)) ∧
      (s.value rs2 = 0 → ∃ t, exec (.mod rd rs1 rs2) s = .next t ∧ Raised s t .divisionByZero)

/-! ### Montgomery arithmetic (45_montgomery.md) -/

/-- R210: the unique Montgomery product, and the domain. -/
def Obligations.MontmulIsMontgomeryProduct : Prop :=
  ∀ rd rs1 rs2 rs3 : Reg, Encoded (.montmul rd rs1 rs2 rs3) 0x50 (rd := rd) (rs1 := rs1) (rs2 := rs2) (rs3 := rs3) ∧
    ∀ (s : State) (X Y N R : Int), s.Inv → X = s.value rs1 → Y = s.value rs2 → N = s.value rs3 → R = 2 ^ (64 * s.len rs3) →
      (0 < N ∧ N % 2 = 1 ∧ 0 ≤ X ∧ X < N ∧ 0 ≤ Y ∧ Y < N →
        ∃ t Z, exec (.montmul rd rs1 rs2 rs3) s = .next t ∧ Wrote s t rd Z ∧ 0 ≤ Z ∧ Z < N ∧ Z * R ≡ X * Y [ZMOD N] ∧
          ∀ Z' : Int, 0 ≤ Z' → Z' < N → Z' * R ≡ X * Y [ZMOD N] → Z' = Z) ∧
      (N ≤ 0 ∨ N % 2 = 0 ∨ X < 0 ∨ X ≥ N ∨ Y < 0 ∨ Y ≥ N →
        ∃ t, exec (.montmul rd rs1 rs2 rs3) s = .next t ∧ Raised s t .badInputData)

/-- R214: the power and `R² mod N`, both destinations together, and the domain; equal destinations are illegal. -/
def Obligations.ModexpIsModularPower : Prop :=
  (∀ rd rs1 rs2 rs3 : Reg,
    decode (layout 0x51 (rd := rd) (rs1 := rs1) (rs2 := rs2) (rs3 := rs3) (rd2 := rd)) = .error .sameDestination) ∧
  ∀ rd rd2 rs1 rs2 rs3 : Reg, rd ≠ rd2 →
    Encoded (.modexp rd rd2 rs1 rs2 rs3) 0x51 (rd := rd) (rs1 := rs1) (rs2 := rs2) (rs3 := rs3) (rd2 := rd2) ∧
    ∀ (s : State) (b e N : Int), s.Inv → b = s.value rs1 → e = s.value rs2 → N = s.value rs3 →
      (0 < N ∧ N % 2 = 1 ∧ 0 ≤ e →
        ∃ t, exec (.modexp rd rd2 rs1 rs2 rs3) s = .next t ∧
          WroteTwo s t rd (b ^ e.toNat % N) rd2 (2 ^ (128 * s.len rs3) % N)) ∧
      (N ≤ 0 ∨ N % 2 = 0 ∨ e < 0 → ∃ t, exec (.modexp rd rd2 rs1 rs2 rs3) s = .next t ∧ Raised s t .badInputData)

/-! ### Greatest common divisor (46_gcd.md) -/

/-- R230: the greatest non-negative integer that divides both. -/
def Obligations.GcdIsGreatestCommonDivisor : Prop :=
  ∀ rd rs1 rs2 : Reg, Encoded (.gcd rd rs1 rs2) 0x60 (rd := rd) (rs1 := rs1) (rs2 := rs2) ∧
    ∀ (s : State) (a b : Int), s.Inv → a = s.value rs1 → b = s.value rs2 →
      ∃ t g, exec (.gcd rd rs1 rs2) s = .next t ∧ Wrote s t rd g ∧ 0 ≤ g ∧ g ∣ a ∧ g ∣ b ∧ (∀ d : Int, d ∣ a → d ∣ b → d ∣ g) ∧
        (b = 0 → g = a.natAbs) ∧ (a = 0 → g = b.natAbs) ∧ (g = 0 ↔ a = 0 ∧ b = 0)

/-! ### The whole machine -/

/-- R60, R70, R271: each presented command is taken and answered once, in order; with nothing presented nothing happens. The list of what is
presented is the model's (log 2, log 9). -/
def Obligations.OneResponsePerCommand : Prop :=
  (∀ (s : State) (w : CmdWord) (a : Scalar) (rest : List HostEvent), s.pending = .cmd w a :: rest →
    ∃ t ρ, step s = .next t ∧ t.pending = rest ∧ t.rsp = some ρ) ∧
  (∀ s : State, s.pending = [] → step s = .next { s with rsp := none })

/-- R246, R249: what a raise and a success do to `STATUS` and the registers, for every word but an inexact `DIV3` (U1). -/
def Obligations.StatusUpdate : Prop :=
  ∀ (s : State) (w : CmdWord), (∀ i, decode w = .ok i → ¬ InexactDiv3 i s) →
    ∃ t ρ, runWord w s = .next t ∧ t.rsp = some ρ ∧
      (ρ.err ≠ .none → Raised s t ρ.err) ∧
      (ρ.err = .none → decode w ≠ .ok .rdst → decode w ≠ .ok .clrf →
        t.status.lastErr = .none ∧ t.status.fault = s.status.fault ∧ t.status.firstErr = s.status.firstErr) ∧
      (decode w = .ok .clrf → t.status = ⟨.none, false, .none, s.status.cmp⟩) ∧
      (decode w = .ok .rdst → t.status = s.status ∧ SameRegs s t) ∧
      (∀ i, decode w = .ok i → i.setsRes = false → ρ.res = 0)

/-- R26, R252: while `FAULT` is set, only `CLRF` clears it and `FIRSTERR` stands, for every word but an inexact `DIV3` (U1). -/
def Obligations.FaultIsSticky : Prop :=
  ∀ (s : State) (w : CmdWord), s.status.fault = true → (∀ i, decode w = .ok i → i ≠ .clrf ∧ ¬ InexactDiv3 i s) →
    ∃ t, runWord w s = .next t ∧ t.status.fault = true ∧ t.status.firstErr = s.status.firstErr

/-- R28: no word but one of `CMP` changes `STATUS.CMP`; an illegal word and a failing command do not either. -/
def Obligations.OnlyCmpWritesFlag : Prop :=
  ∀ (s : State) (w : CmdWord), (∀ a b, decode w ≠ .ok (.cmp a b)) → ∃ t, runWord w s = .next t ∧ t.status.cmp = s.status.cmp

/-- R28, R252: nothing but `RDST` reads `STATUS`: with another `STATUS` a command writes the same registers and answers the same. An inexact
`DIV3` is left out: nothing says that two undefined results agree (U1). -/
def Obligations.NoCommandReadsStatus : Prop :=
  ∀ (i : Instr) (s : State) (σ : Status), i ≠ .rdst → ¬ InexactDiv3 i s →
    ∃ t t', exec i s = .next t ∧ exec i { s with status := σ } = .next t' ∧ (∀ r : Reg, t'.reg r = t.reg r) ∧ t'.rsp = t.rsp ∧
      SameRest t t'

/-- R29: a command writes no register outside the table. -/
def Obligations.WritesOnlyDestinations : Prop :=
  ∀ (i : Instr) (s : State), ∃ t, exec i s = .next t ∧ ∀ r : Reg, r ∉ i.destinations → t.reg r = s.reg r

/-- R29: a command reads no register outside the table: two states that agree on its sources and on everything but the registers get the
same `STATUS`, the same response, and the same destinations, or destinations left as they were in both. An inexact `DIV3` is left out: nothing
says that two undefined results agree (U1). -/
def Obligations.ReadsOnlySources : Prop :=
  ∀ (i : Instr) (s : State) (regs : Vector BigInt 16), (∀ r ∈ i.sources, regs[r] = s.reg r) → ¬ InexactDiv3 i s →
    ∃ t t', exec i s = .next t ∧ exec i { s with regs := regs } = .next t' ∧ t'.status = t.status ∧ t'.rsp = t.rsp ∧ SameRest t t' ∧
      ((∀ r ∈ i.destinations, t'.reg r = t.reg r) ∨ (∀ r : Reg, t.reg r = s.reg r ∧ t'.reg r = regs[r]))

/-- R254: an error of a decoded command is one of its row of the table, for every command but an inexact `DIV3` (U1). -/
def Obligations.ErrorTable : Prop :=
  ∀ (i : Instr) (s : State), s.Inv → ¬ InexactDiv3 i s →
    ∃ t ρ, exec i s = .next t ∧ t.rsp = some ρ ∧ (ρ.err = .none ∨ ρ.err ∈ mayRaise i)

/-- R27, R242: codes 3 and 5 are never returned and never stored, and `FIRSTERR` is 0 exactly while `FAULT` is. For an inexact `DIV3` this
is the model's choice (log 6). -/
def Obligations.LegalErrorCodes : Prop :=
  ∀ s : State, s.Inv → ∃ t, step s = .next t ∧
    (∀ ρ, t.rsp = some ρ → ρ.err.code = 0 ∨ ρ.err.code = 1 ∨ ρ.err.code = 2 ∨ ρ.err.code = 4 ∨ ρ.err.code = 6) ∧
    (∀ e, e = t.status.lastErr ∨ e = t.status.firstErr → e.code = 0 ∨ e.code = 1 ∨ e.code = 2 ∨ e.code = 4 ∨ e.code = 6) ∧
    (t.status.firstErr.code = 0 ↔ t.status.fault = false)

/-- R7, R270: no step changes `MAXLIMBS`. That it stands in the state is the model's choice (log 1). -/
def Obligations.MaxlimbsIsConstant : Prop :=
  ∀ s : State, ∃ t, step s = .next t ∧ t.cfg = s.cfg

/-- R73: a command that does not use `arg` ignores it. An inexact `DIV3` is left out: nothing says that two undefined results agree (U1). -/
def Obligations.UnusedArgIgnored : Prop :=
  ∀ (i : Instr) (s : State) (a : Scalar), i.usesArg = false → ¬ InexactDiv3 i s →
    ∃ t, exec i s = .next t ∧ exec i { s with arg := a } = .next { t with arg := a }

/-- R73, R78: `res` is 0 in the response of a command that does not set it, and of every failed command, for every command but an inexact
`DIV3` (U1). -/
def Obligations.ResZeroUnlessSet : Prop :=
  ∀ (i : Instr) (s : State), ¬ InexactDiv3 i s →
    ∃ t ρ, exec i s = .next t ∧ t.rsp = some ρ ∧ (i.setsRes = false ∨ ρ.err ≠ .none → ρ.res = 0)

end
end

