-- ==== Sys2Proof/Laws/Limbs.lean ====
section
/-! SUPPORT. Laws of limb sequences: values, canonical sequences, `trim`, and the two views of a register content (00_scope.md R11;
10_state.md R22, R23; 41_representation.md R120). -/

namespace Sys2Proof.Machine

/-! ### Bit length -/

/-- `bitlen` is the least `k` with `a < 2^k` (R9). -/
theorem bitlen_le_iff (a k : Nat) : bitlen a ≤ k ↔ a < 2 ^ k := by
  unfold bitlen
  split
  · subst_vars; simp
  · rename_i h
    rw [Nat.add_one_le_iff, Nat.log2_lt h]

theorem lt_two_pow_bitlen (a : Nat) : a < 2 ^ bitlen a := (bitlen_le_iff a _).1 le_rfl

theorem bitlen_zero : bitlen 0 = 0 := rfl

theorem two_pow_le_of_lt_bitlen {a k : Nat} (h : k < bitlen a) : 2 ^ k ≤ a := by
  by_contra hc
  exact absurd ((bitlen_le_iff a k).2 (not_le.1 hc)) (not_le.2 h)

theorem bitlen_eq_one_iff (a : Nat) : bitlen a = 1 ↔ a = 1 := by
  have h1 := bitlen_le_iff a 1
  have h0 := bitlen_le_iff a 0
  simp only [Nat.pow_zero, Nat.pow_one, Nat.lt_one_iff] at h0 h1
  omega

/-! ### Values -/

/-- The value of a sequence written least significant limb first. -/
def valLeast : List Limb → Nat
  | [] => 0
  | d :: L => d.toNat + 2 ^ 64 * valLeast L

@[simp] theorem valLeast_nil : valLeast [] = 0 := rfl

@[simp] theorem valLeast_cons (d : Limb) (L : List Limb) : valLeast (d :: L) = d.toNat + 2 ^ 64 * valLeast L := rfl

theorem valLeast_append (L M : List Limb) : valLeast (L ++ M) = valLeast L + (2 ^ 64) ^ L.length * valLeast M := by
  induction L with
  | nil => simp
  | cons d L ih => simp only [List.cons_append, valLeast_cons, ih, List.length_cons]; ring

@[simp] theorem val_nil : val [] = 0 := rfl

@[simp] theorem val_cons (d : Limb) (L : List Limb) : val (d :: L) = d.toNat * (2 ^ 64) ^ L.length + val L := rfl

theorem valLeast_reverse (L : List Limb) : valLeast L.reverse = val L := by
  induction L with
  | nil => rfl
  | cons d L ih => rw [List.reverse_cons, valLeast_append, ih]; simp [Nat.mul_comm, Nat.add_comm]

theorem val_reverse (L : List Limb) : val L.reverse = valLeast L := by
  rw [← valLeast_reverse, List.reverse_reverse]

theorem val_append (L M : List Limb) : val (L ++ M) = val L * (2 ^ 64) ^ M.length + val M := by
  induction L with
  | nil => simp
  | cons d L ih => simp only [List.cons_append, val_cons, ih, List.length_append]; ring

theorem val_lt (L : List Limb) : val L < (2 ^ 64) ^ L.length := by
  induction L with
  | nil => simp
  | cons d L ih =>
    have hd : d.toNat + 1 ≤ 2 ^ 64 := d.isLt
    calc val (d :: L) < d.toNat * (2 ^ 64) ^ L.length + (2 ^ 64) ^ L.length := by rw [val_cons]; omega
      _ = (d.toNat + 1) * (2 ^ 64) ^ L.length := by ring
      _ ≤ 2 ^ 64 * (2 ^ 64) ^ L.length := Nat.mul_le_mul_right _ hd
      _ = (2 ^ 64) ^ (d :: L).length := by rw [List.length_cons, pow_succ]; ring

/-! ### Canonical sequences and `trim` -/

/-- A sequence without a leading zero limb (R22 (2)). -/
def Canonical (L : List Limb) : Prop := L.head? ≠ some 0

@[simp] theorem canonical_nil : Canonical [] := by simp [Canonical]

theorem canonical_cons_iff (d : Limb) (L : List Limb) : Canonical (d :: L) ↔ d ≠ 0 := by simp [Canonical]

theorem toNat_pos_of_ne_zero {d : Limb} (h : d ≠ 0) : 0 < d.toNat := by
  rcases Nat.eq_zero_or_pos d.toNat with h0 | h0
  · exact absurd (BitVec.eq_of_toNat_eq (by simpa using h0)) h
  · exact h0

theorem pow_le_val_of_canonical {d : Limb} {L : List Limb} (h : Canonical (d :: L)) : (2 ^ 64) ^ L.length ≤ val (d :: L) := by
  have := toNat_pos_of_ne_zero ((canonical_cons_iff d L).1 h)
  rw [val_cons]
  nlinarith [Nat.zero_le ((2 ^ 64) ^ L.length : Nat)]

theorem val_eq_zero_of_canonical {L : List Limb} (h : Canonical L) : val L = 0 ↔ L = [] := by
  cases L with
  | nil => simp
  | cons d L =>
    have := pow_le_val_of_canonical h
    have hp : 0 < (2 ^ 64) ^ L.length := by positivity
    constructor
    · intro h0; omega
    · simp

/-- The length of a canonical sequence is fixed by its value. -/
theorem length_le_iff_of_canonical {L : List Limb} (h : Canonical L) (n : Nat) : L.length ≤ n ↔ val L < (2 ^ 64) ^ n := by
  constructor
  · intro hl; exact lt_of_lt_of_le (val_lt L) (Nat.pow_le_pow_right (by norm_num) hl)
  · intro hv
    cases L with
    | nil => simp
    | cons d L =>
      have := lt_of_le_of_lt (pow_le_val_of_canonical h) hv
      have := (Nat.pow_lt_pow_iff_right (by norm_num : 1 < 2 ^ 64)).1 this
      simpa using this

theorem length_eq_of_val_eq {L M : List Limb} (hL : Canonical L) (hM : Canonical M) (h : val L = val M) :
    L.length = M.length := by
  apply le_antisymm
  · rw [length_le_iff_of_canonical hL, h]; exact val_lt M
  · rw [length_le_iff_of_canonical hM, ← h]; exact val_lt L

theorem eq_of_val_eq_of_length_eq {L M : List Limb} (hl : L.length = M.length) (h : val L = val M) : L = M := by
  induction L generalizing M with
  | nil => cases M with
    | nil => rfl
    | cons => simp at hl
  | cons d L ih =>
    cases M with
    | nil => simp at hl
    | cons e M =>
      simp only [List.length_cons, Nat.add_right_cancel_iff] at hl
      rw [val_cons, val_cons, hl] at h
      have h1 := val_lt L
      have h2 := val_lt M
      rw [hl] at h1
      have hp : 0 < (2 ^ 64) ^ M.length := by positivity
      have hde : d.toNat = e.toNat := by
        have a1 : (d.toNat * (2 ^ 64) ^ M.length + val L) / (2 ^ 64) ^ M.length = d.toNat := by
          rw [Nat.mul_comm, Nat.mul_add_div hp, Nat.div_eq_of_lt h1, Nat.add_zero]
        have a2 : (e.toNat * (2 ^ 64) ^ M.length + val M) / (2 ^ 64) ^ M.length = e.toNat := by
          rw [Nat.mul_comm, Nat.mul_add_div hp, Nat.div_eq_of_lt h2, Nat.add_zero]
        rw [← a1, ← a2, h]
      rw [BitVec.eq_of_toNat_eq hde, ih hl (by rw [hde] at h; omega)]

/-- "the unique sequence" of R11. -/
theorem eq_of_val_eq {L M : List Limb} (hL : Canonical L) (hM : Canonical M) (h : val L = val M) : L = M :=
  eq_of_val_eq_of_length_eq (length_eq_of_val_eq hL hM h) h

@[simp] theorem val_trimLimbs (L : List Limb) : val (trimLimbs L) = val L := by
  induction L with
  | nil => rfl
  | cons d L ih =>
    unfold trimLimbs
    split
    · subst_vars; simp [ih]
    · rfl

theorem canonical_trimLimbs (L : List Limb) : Canonical (trimLimbs L) := by
  induction L with
  | nil => simp [trimLimbs]
  | cons d L ih =>
    unfold trimLimbs
    split
    · exact ih
    · rwa [canonical_cons_iff]

theorem trimLimbs_of_canonical {L : List Limb} (h : Canonical L) : trimLimbs L = L :=
  eq_of_val_eq (canonical_trimLimbs L) h (val_trimLimbs L)

theorem length_trimLimbs_le (L : List Limb) : (trimLimbs L).length ≤ L.length := by
  rw [length_le_iff_of_canonical (canonical_trimLimbs L), val_trimLimbs]; exact val_lt L

/-! ### `limbs(m)` -/

theorem valLeast_limbsFromLeast (fuel m : Nat) (h : m < (2 ^ 64) ^ fuel) : valLeast (limbsFromLeast fuel m) = m := by
  induction fuel generalizing m with
  | zero => simp at h; subst h; rfl
  | succ fuel ih =>
    unfold limbsFromLeast
    split
    · subst_vars; rfl
    · have : m / 2 ^ 64 < (2 ^ 64) ^ fuel := by
        rw [Nat.div_lt_iff_lt_mul (by norm_num), ← pow_succ]; exact h
      rw [valLeast_cons, ih _ this, BitVec.toNat_ofNat]
      omega

theorem canonical_limbsFromLeast (fuel m : Nat) (h : m < (2 ^ 64) ^ fuel) : Canonical (limbsFromLeast fuel m).reverse := by
  have key : ∀ fuel m, m < (2 ^ 64) ^ fuel → (limbsFromLeast fuel m).getLast? ≠ some 0 := by
    intro fuel
    induction fuel with
    | zero => intro m _; simp [limbsFromLeast]
    | succ fuel ih =>
      intro m h
      unfold limbsFromLeast
      split
      · simp
      · rename_i hm
        have hlt : m / 2 ^ 64 < (2 ^ 64) ^ fuel := by
          rw [Nat.div_lt_iff_lt_mul (by norm_num), ← pow_succ]; exact h
        cases hr : limbsFromLeast fuel (m / 2 ^ 64) with
        | nil =>
          have hv := valLeast_limbsFromLeast fuel _ hlt
          rw [hr] at hv
          simp only [valLeast_nil] at hv
          simp only [List.getLast?_singleton, ne_eq, Option.some.injEq]
          intro h0
          have := congrArg BitVec.toNat h0
          simp only [BitVec.toNat_ofNat, BitVec.ofNat_eq_ofNat] at this
          omega
        | cons e E =>
          have := ih _ hlt
          rw [hr] at this
          simpa [List.getLast?_cons_cons] using this
  simpa [Canonical] using key fuel m h

theorem lt_fuel (m : Nat) : m < (2 ^ 64) ^ (bitlen m / 64 + 1) := by
  refine lt_of_lt_of_le (lt_two_pow_bitlen m) ?_
  rw [← pow_mul]
  exact Nat.pow_le_pow_right (by norm_num) (by omega)

@[simp] theorem val_toLimbs (m : Nat) : val (toLimbs m) = m := by
  rw [toLimbs, val_reverse, valLeast_limbsFromLeast _ _ (lt_fuel m)]

theorem canonical_toLimbs (m : Nat) : Canonical (toLimbs m) := canonical_limbsFromLeast _ _ (lt_fuel m)

theorem toLimbs_val {L : List Limb} (h : Canonical L) : toLimbs (val L) = L :=
  eq_of_val_eq (canonical_toLimbs _) h (val_toLimbs _)

theorem toLimbs_eq_nil_iff (m : Nat) : toLimbs m = [] ↔ m = 0 := by
  rw [← val_eq_zero_of_canonical (canonical_toLimbs m), val_toLimbs]

@[simp] theorem toLimbs_zero : toLimbs 0 = [] := (toLimbs_eq_nil_iff 0).2 rfl

/-- The capacity test on a value (R23, R243). -/
theorem length_toLimbs_le_iff (m n : Nat) : (toLimbs m).length ≤ n ↔ m < (2 ^ 64) ^ n := by
  rw [length_le_iff_of_canonical (canonical_toLimbs m), val_toLimbs]

theorem lt_length_toLimbs_iff (m n : Nat) : n < (toLimbs m).length ↔ (2 ^ 64) ^ n ≤ m := by
  rw [← not_le, length_toLimbs_le_iff, not_lt]

/-! ### The two views of a register content (R23) -/

@[simp] theorem Tri.ofInt_toInt (v : Int) : (Tri.ofInt v).toInt = v.sign := by
  unfold Tri.ofInt
  split
  · rename_i h; rw [Int.sign_eq_neg_one_of_neg h]; rfl
  · split
    · subst_vars; rfl
    · rw [Int.sign_eq_one_of_pos (by omega)]; rfl

@[simp] theorem BigInt.toInt_ofInt (v : Int) : (BigInt.ofInt v).toInt = v := by
  simp only [BigInt.toInt, BigInt.ofInt, Tri.ofInt_toInt, val_toLimbs, Int.sign_mul_natAbs]

theorem BigInt.wf_iff (cap : Nat) (b : BigInt) :
    b.wf cap = true ↔ (b.sign = .zero ↔ b.limbs = []) ∧ Canonical b.limbs ∧ b.limbs.length ≤ cap := by
  simp [BigInt.wf, Canonical, and_assoc]

theorem BigInt.wf_ofInt {cap : Nat} {v : Int} (h : v.natAbs < (2 ^ 64) ^ cap) : (BigInt.ofInt v).wf cap = true := by
  rw [BigInt.wf_iff]
  refine ⟨?_, canonical_toLimbs _, (length_toLimbs_le_iff _ _).2 h⟩
  simp only [BigInt.ofInt, toLimbs_eq_nil_iff, Tri.ofInt]
  split <;> [skip; split] <;> simp <;> omega

theorem BigInt.natAbs_toInt {cap : Nat} {b : BigInt} (h : b.wf cap = true) : b.toInt.natAbs = val b.limbs := by
  obtain ⟨hz, hc, -⟩ := (BigInt.wf_iff cap b).1 h
  unfold BigInt.toInt
  cases hs : b.sign with
  | neg => simp [Tri.toInt]
  | zero => simp [Tri.toInt, hz.1 hs]
  | pos => simp [Tri.toInt]

theorem BigInt.sign_toInt {cap : Nat} {b : BigInt} (h : b.wf cap = true) : b.toInt.sign = b.sign.toInt := by
  obtain ⟨hz, hc, -⟩ := (BigInt.wf_iff cap b).1 h
  unfold BigInt.toInt
  have hpos : b.sign ≠ .zero → (0 : Int) < val b.limbs := by
    intro hs
    have : b.limbs ≠ [] := fun hn => hs (hz.2 hn)
    have := (val_eq_zero_of_canonical hc).not.2 this
    omega
  cases hs : b.sign with
  | neg =>
    have := hpos (by simp [hs])
    simp only [Tri.toInt]
    rw [Int.sign_eq_neg_one_of_neg (by omega)]
  | zero => simp [Tri.toInt]
  | pos =>
    have := hpos (by simp [hs])
    simp only [Tri.toInt]
    rw [Int.sign_eq_one_of_pos (by omega)]

/-- The limbs of a canonical content are those of its magnitude. -/
theorem BigInt.limbs_eq {cap : Nat} {b : BigInt} (h : b.wf cap = true) : b.limbs = toLimbs b.toInt.natAbs := by
  rw [BigInt.natAbs_toInt h, toLimbs_val ((BigInt.wf_iff cap b).1 h).2.1]

theorem Tri.eq_of_toInt_eq {a b : Tri} (h : a.toInt = b.toInt) : a = b := by
  cases a <;> cases b <;> simp_all [Tri.toInt]

theorem BigInt.sign_eq {cap : Nat} {b : BigInt} (h : b.wf cap = true) : b.sign = Tri.ofInt b.toInt :=
  Tri.eq_of_toInt_eq (by rw [Tri.ofInt_toInt, BigInt.sign_toInt h])

/-- A canonical content is the one its integer stands for (R23). -/
theorem BigInt.ofInt_toInt {cap : Nat} {b : BigInt} (h : b.wf cap = true) : BigInt.ofInt b.toInt = b := by
  cases b with
  | mk sg L =>
    have h1 := BigInt.sign_eq h
    have h2 := BigInt.limbs_eq h
    simp only at h1 h2
    rw [BigInt.ofInt, ← h1, ← h2]

theorem BigInt.toInt_bound {cap : Nat} {b : BigInt} (h : b.wf cap = true) : b.toInt.natAbs < (2 ^ 64) ^ cap := by
  rw [BigInt.natAbs_toInt h]
  exact (length_le_iff_of_canonical ((BigInt.wf_iff cap b).1 h).2.1 cap).1 ((BigInt.wf_iff cap b).1 h).2.2

end Sys2Proof.Machine
end

