-- ==== Sys2Proof/Laws/Linear.lean ====
section
/-! SUPPORT. What each unit of the linear datapath computes (42_linear_arithmetic.md R130 to R133, R138, R140), one law per unit. -/

namespace Sys2Proof.Machine

/-! ### The comparator (R130) -/

theorem Tri.ofInt_of_neg {v : Int} (h : v < 0) : Tri.ofInt v = .neg := by simp [Tri.ofInt, h]

theorem Tri.ofInt_of_pos {v : Int} (h : 0 < v) : Tri.ofInt v = .pos := by
  unfold Tri.ofInt; rw [if_neg (by omega), if_neg (by omega)]

theorem Tri.negate_ofInt (v : Int) : (Tri.ofInt v).negate = Tri.ofInt (-v) := by
  rcases lt_trichotomy v 0 with h | h | h
  · rw [Tri.ofInt_of_neg h, Tri.ofInt_of_pos (by omega)]; rfl
  · subst h; rfl
  · rw [Tri.ofInt_of_pos h, Tri.ofInt_of_neg (by omega)]; rfl

theorem scanLimbs_eq (P Q : List Limb) (h : P.length = Q.length) : scanLimbs P Q = Tri.ofInt (val P - val Q) := by
  induction P generalizing Q with
  | nil => cases Q with
    | nil => rfl
    | cons => simp at h
  | cons p P ih =>
    cases Q with
    | nil => simp at h
    | cons q Q =>
      simp only [List.length_cons, Nat.add_right_cancel_iff] at h
      have h1 := val_lt P
      have h2 := val_lt Q
      rw [h] at h1
      have hp : 0 < (2 ^ 64) ^ Q.length := by positivity
      unfold scanLimbs
      rw [val_cons, val_cons, h]
      generalize (2 ^ 64) ^ Q.length = B at *
      split
      · rename_i hgt
        have : (q.toNat + 1) * B ≤ p.toNat * B := Nat.mul_le_mul_right _ hgt
        unfold Tri.ofInt
        rw [if_neg (by push_cast; nlinarith), if_neg (by push_cast; nlinarith)]
      · split
        · rename_i hlt
          have : (p.toNat + 1) * B ≤ q.toNat * B := Nat.mul_le_mul_right _ hlt
          unfold Tri.ofInt
          rw [if_pos (by push_cast; nlinarith)]
        · rw [ih Q h, show p.toNat = q.toNat by omega]
          congr 1
          push_cast
          ring

/-- `mag_cmp` is the sign of the difference (R130). -/
theorem magCmp_eq {P Q : List Limb} (hP : Canonical P) (hQ : Canonical Q) : magCmp P Q = Tri.ofInt (val P - val Q) := by
  unfold magCmp
  have hlt : ∀ {P Q : List Limb}, Canonical P → Q.length < P.length → val Q < val P := by
    intro P Q hP hl
    by_contra hc
    exact absurd ((length_le_iff_of_canonical hP Q.length).2 (lt_of_le_of_lt (not_lt.1 hc) (val_lt Q))) (by omega)
  split
  · rename_i h
    have := hlt hP h
    unfold Tri.ofInt
    rw [if_neg (by omega), if_neg (by omega)]
  · split
    · rename_i h
      have := hlt hQ h
      unfold Tri.ofInt
      rw [if_pos (by omega)]
    · exact scanLimbs_eq P Q (by omega)

/-! ### The adder (R131) -/

theorem valLeast_carryLoop (P : List Limb) (c : Nat) (hc : c ≤ 1) : valLeast (carryLoop P c) = valLeast P + c := by
  induction P generalizing c with
  | nil => unfold carryLoop; split <;> simp <;> omega
  | cons p P ih =>
    have := p.isLt
    unfold carryLoop
    simp only [valLeast_cons, BitVec.toNat_ofNat]
    rw [ih _ (by omega)]
    omega

theorem valLeast_addLoop (P Q : List Limb) (c : Nat) (hc : c ≤ 1) :
    valLeast (addLoop P Q c) = valLeast P + valLeast Q + c := by
  induction P generalizing Q c with
  | nil => simp [addLoop, valLeast_carryLoop Q c hc]
  | cons p P ih =>
    cases Q with
    | nil => simp only [addLoop, valLeast_carryLoop _ c hc, valLeast_nil, Nat.add_zero]
    | cons q Q =>
      have := p.isLt
      have := q.isLt
      simp only [addLoop, valLeast_cons, BitVec.toNat_ofNat]
      rw [ih Q _ (by omega)]
      omega

/-- `mag_add` is exact: "nothing wraps and no bit is lost" (R131). -/
@[simp] theorem val_magAdd (P Q : List Limb) : val (magAdd P Q) = val P + val Q := by
  rw [magAdd, val_reverse, valLeast_addLoop _ _ 0 (by omega), valLeast_reverse, valLeast_reverse, Nat.add_zero]

/-! ### The subtractor (R132) -/

theorem valLeast_subLoop (P Q : List Limb) (b : Int) (hb : b = 0 ∨ b = 1) :
    ∃ k : Int, (valLeast (subLoop P Q b) : Int) = valLeast P - valLeast Q - b + k * (2 ^ 64) ^ P.length := by
  induction P generalizing Q b with
  | nil => exact ⟨valLeast Q + b, by simp [subLoop]⟩
  | cons p P ih =>
    have hp := p.isLt
    have hq := (Q.headD 0).isLt
    have hQ : (valLeast Q : Int) = (Q.headD 0).toNat + 2 ^ 64 * valLeast Q.tail := by
      cases Q <;> simp
    unfold subLoop
    simp only [BitVec.ofNat_eq_ofNat] at hq hQ ⊢
    split
    · obtain ⟨k, hk⟩ := ih Q.tail 1 (.inr rfl)
      refine ⟨k, ?_⟩
      rw [valLeast_cons, valLeast_cons, Nat.cast_add, Nat.cast_mul, hk, hQ, List.length_cons, pow_succ, BitVec.toNat_ofInt]
      rw [Int.toNat_of_nonneg (by omega), Int.emod_eq_of_lt (by omega) (by push_cast; omega)]
      push_cast
      ring
    · obtain ⟨k, hk⟩ := ih Q.tail 0 (.inl rfl)
      refine ⟨k, ?_⟩
      rw [valLeast_cons, valLeast_cons, Nat.cast_add, Nat.cast_mul, hk, hQ, List.length_cons, pow_succ, BitVec.toNat_ofInt]
      rw [Int.toNat_of_nonneg (by omega), Int.emod_eq_of_lt (by omega) (by push_cast; omega)]
      push_cast
      ring

theorem length_subLoop (P Q : List Limb) (b : Int) : (subLoop P Q b).length = P.length := by
  induction P generalizing Q b with
  | nil => rfl
  | cons p P ih => unfold subLoop; dsimp only; split <;> simp [ih]

theorem valLeast_lt (L : List Limb) : valLeast L < (2 ^ 64) ^ L.length := by
  rw [← val_reverse, ← List.length_reverse]; exact val_lt _

theorem canonical_magSub (P Q : List Limb) : Canonical (magSub P Q) := canonical_trimLimbs _

/-- `mag_sub` is exact under its precondition (R132). -/
theorem val_magSub {P Q : List Limb} (h : val Q ≤ val P) : val (magSub P Q) = val P - val Q := by
  rw [magSub, val_trimLimbs, val_reverse]
  obtain ⟨k, hk⟩ := valLeast_subLoop P.reverse Q.reverse 0 (.inl rfl)
  have h1 := valLeast_lt (subLoop P.reverse Q.reverse 0)
  rw [length_subLoop] at h1
  rw [valLeast_reverse, valLeast_reverse, List.length_reverse] at hk
  rw [List.length_reverse] at h1
  have h2 := val_lt P
  have hk0 : k = 0 := by
    have hB : (0 : Int) < (2 ^ 64) ^ P.length := by positivity
    have h1' : ((valLeast (subLoop P.reverse Q.reverse 0) : Nat) : Int) < (2 ^ 64) ^ P.length := by exact_mod_cast h1
    have h2' : ((val P : Nat) : Int) < (2 ^ 64) ^ P.length := by exact_mod_cast h2
    generalize ((2 : Int) ^ 64) ^ P.length = B at *
    by_contra hne
    rcases lt_or_gt_of_ne hne with hn | hn <;> nlinarith
  subst hk0
  omega

/-! ### Signed addition (R133) -/

theorem Int.sign_mul_natAbs_cast (v : Int) : v.sign * (v.natAbs : Int) = v := Int.sign_mul_natAbs v

theorem natAbs_eq_sign_mul (v : Int) : (v.natAbs : Int) = v.sign * v := by
  rcases lt_trichotomy v 0 with h | h | h
  · rw [Int.sign_eq_neg_one_of_neg h]; omega
  · subst h; rfl
  · rw [Int.sign_eq_one_of_pos h]; omega

/-- `sadd` is addition (R133): "The result equals the integer `a + b` exactly". -/
@[simp] theorem sadd_eq (a b : Int) : sadd a b = a + b := by
  unfold sadd
  simp only [magCmp_eq (canonical_toLimbs _) (canonical_toLimbs _), val_toLimbs]
  split
  · subst_vars; simp
  split
  · subst_vars; simp
  rename_i ha hb
  split
  · rename_i hs
    rw [val_magAdd, val_toLimbs, val_toLimbs, Nat.cast_add, mul_add, Int.sign_mul_natAbs, hs, Int.sign_mul_natAbs]
  rename_i hs
  have hopp : b.sign = -a.sign := by
    rcases lt_or_gt_of_ne ha with h1 | h1 <;> rcases lt_or_gt_of_ne hb with h2 | h2 <;>
      simp_all [Int.sign_eq_neg_one_of_neg, Int.sign_eq_one_of_pos]
  have e1 := Int.sign_mul_natAbs a
  have e2 := Int.sign_mul_natAbs b
  unfold Tri.ofInt
  split
  · rename_i heq
    split at heq <;> [simp at heq; skip]
    split at heq <;> [skip; simp at heq]
    rename_i h0
    rw [hopp] at e2
    have : (a.natAbs : Int) = b.natAbs := by omega
    rw [← this] at e2
    linarith
  · rename_i heq
    split at heq <;> [simp at heq; skip]
    split at heq <;> [simp at heq; skip]
    rw [val_magSub (by simp; omega), val_toLimbs, val_toLimbs, Nat.cast_sub (by omega), mul_sub, e1]
    rw [hopp] at e2
    linarith
  · rename_i heq
    split at heq <;> [skip; split at heq <;> simp at heq]
    rw [val_magSub (by simp; omega), val_toLimbs, val_toLimbs, Nat.cast_sub (by omega), mul_sub, e2]
    rw [hopp]
    linarith

/-! ### The comparison of signed contents (R137) -/

/-- `CMP` computes the sign of the difference (R137), in every state that meets the invariant. -/
theorem compareSigned_eq {cap : Nat} {a b : BigInt} (ha : a.wf cap = true) (hb : b.wf cap = true) :
    compareSigned a b = Tri.ofInt (a.toInt - b.toInt) := by
  have sa := BigInt.sign_toInt ha
  have sb := BigInt.sign_toInt hb
  have na := BigInt.natAbs_toInt ha
  have nb := BigInt.natAbs_toInt hb
  have hm := magCmp_eq ((BigInt.wf_iff cap a).1 ha).2.1 ((BigInt.wf_iff cap b).1 hb).2.1
  rw [← na, ← nb] at hm
  unfold compareSigned
  rw [hm]
  generalize a.toInt = x at *
  generalize b.toInt = y at *
  have key : ∀ (t : Tri) (v : Int), v.sign = t.toInt → (t = .neg ↔ v < 0) ∧ (t = .zero ↔ v = 0) ∧ (t = .pos ↔ 0 < v) := by
    intro t v h
    rcases lt_trichotomy v 0 with hv | hv | hv
    · rw [Int.sign_eq_neg_one_of_neg hv] at h
      cases t <;> simp [Tri.toInt] at h ⊢ <;> omega
    · subst hv; cases t <;> simp [Tri.toInt] at h ⊢
    · rw [Int.sign_eq_one_of_pos hv] at h
      cases t <;> simp [Tri.toInt] at h ⊢ <;> omega
  have ka := key _ _ sa
  have kb := key _ _ sb
  cases hsa : a.sign <;> cases hsb : b.sign <;> simp only [hsa, hsb, true_iff, false_iff,
    reduceCtorEq, not_lt] at ka kb <;> simp only [Tri.toInt, ne_eq, reduceCtorEq, not_false_eq_true, not_true_eq_false,
    if_true, if_false]
  · rw [Tri.negate_ofInt]; congr 1; omega
  · rw [Tri.ofInt_of_neg (by omega)]; simp
  · rw [Tri.ofInt_of_neg (by omega)]; simp
  · rw [Tri.ofInt_of_pos (by omega)]; simp
  · rw [show x - y = 0 by omega]; rfl
  · rw [Tri.ofInt_of_neg (by omega)]; simp
  · rw [Tri.ofInt_of_pos (by omega)]; simp
  · rw [Tri.ofInt_of_pos (by omega)]; simp
  · congr 1; omega

/-! ### The shifter (R138) -/

theorem toNat_shiftLimb (k : Nat) (hk : 0 < k) (hk' : k < 64) (d hi : Limb) :
    (d >>> k ||| hi <<< (64 - k)).toNat = d.toNat / 2 ^ k + hi.toNat % 2 ^ k * 2 ^ (64 - k) := by
  have hd := d.isLt
  have hpow : 2 ^ k * 2 ^ (64 - k) = 2 ^ 64 := by rw [← pow_add]; congr 1; omega
  have hlow : d.toNat / 2 ^ k < 2 ^ (64 - k) := by
    rw [Nat.div_lt_iff_lt_mul (by positivity), Nat.mul_comm, hpow]; exact hd
  have hshift : (hi <<< (64 - k)).toNat = hi.toNat % 2 ^ k * 2 ^ (64 - k) := by
    rw [BitVec.toNat_shiftLeft, Nat.shiftLeft_eq, ← hpow, Nat.mul_mod_mul_right]
  rw [BitVec.toNat_or, BitVec.toNat_ushiftRight, Nat.shiftRight_eq_div_pow, hshift, Nat.or_comm, Nat.mul_comm,
    ← Nat.two_pow_add_eq_or_of_lt hlow, Nat.mul_comm, Nat.add_comm]

theorem val_shiftLimbs (k : Nat) (hk : 0 < k) (hk' : k < 64) (hi : Limb) (L : List Limb) :
    val (shiftLimbs k hi L) = (hi.toNat % 2 ^ k * (2 ^ 64) ^ L.length + val L) / 2 ^ k ∧
      (shiftLimbs k hi L).length = L.length := by
  induction L generalizing hi with
  | nil =>
    have : hi.toNat % 2 ^ k < 2 ^ k := Nat.mod_lt _ (by positivity)
    simp [shiftLimbs, Nat.div_eq_of_lt this]
  | cons d L ih =>
    obtain ⟨ih1, ih2⟩ := ih d
    refine ⟨?_, by simp [shiftLimbs, ih2]⟩
    unfold shiftLimbs
    rw [val_cons, ih1, ih2, toNat_shiftLimb k hk hk', val_cons, List.length_cons]
    have hpow : 2 ^ k * 2 ^ (64 - k) = 2 ^ 64 := by rw [← pow_add]; congr 1; omega
    have hd : d.toNat = 2 ^ k * (d.toNat / 2 ^ k) + d.toNat % 2 ^ k := (Nat.div_add_mod _ _).symm
    have : hi.toNat % 2 ^ k * (2 ^ 64) ^ (L.length + 1) + (d.toNat * (2 ^ 64) ^ L.length + val L) =
        2 ^ k * ((d.toNat / 2 ^ k + hi.toNat % 2 ^ k * 2 ^ (64 - k)) * (2 ^ 64) ^ L.length) +
          (d.toNat % 2 ^ k * (2 ^ 64) ^ L.length + val L) := by
      conv_lhs => rw [hd, pow_succ]
      rw [← hpow]
      ring
    rw [this, Nat.mul_add_div (by positivity)]

theorem val_take (L : List Limb) (q : Nat) (hq : q ≤ L.length) : val (L.take (L.length - q)) = val L / (2 ^ 64) ^ q := by
  conv_rhs => rw [← List.take_append_drop (L.length - q) L, val_append]
  have hl : (L.drop (L.length - q)).length = q := by simp; omega
  have := val_lt (L.drop (L.length - q))
  rw [hl] at this ⊢
  rw [Nat.mul_comm, Nat.mul_add_div (by positivity), Nat.div_eq_of_lt this, Nat.add_zero]

/-- `shr_mag` is the floor quotient by `2^n` (R138). -/
theorem val_shrMag (P : List Limb) (n : Nat) : val (shrMag P n) = val P / 2 ^ n := by
  have hn : 2 ^ n = (2 ^ 64) ^ (n / 64) * 2 ^ (n % 64) := by rw [← pow_mul, ← pow_add, Nat.div_add_mod]
  unfold shrMag
  simp only
  split
  · rename_i h
    rw [val_nil, Nat.div_eq_of_lt]
    refine lt_of_lt_of_le (val_lt P) ?_
    rw [← pow_mul]
    exact Nat.pow_le_pow_right (by norm_num) (by omega)
  · rename_i h
    have ht := val_take P (n / 64) (by omega)
    split
    · rename_i hk
      rw [ht, hn, hk, pow_zero, Nat.mul_one]
    · rename_i hk
      rw [val_trimLimbs, (val_shiftLimbs _ (by omega) (Nat.mod_lt _ (by norm_num)) 0 _).1, ht, hn]
      simp [Nat.div_div_eq_div_mul]

/-! ### Exact division by 3 (R140) -/

theorem toNat_inv3 : inv3.toNat = 0xAAAAAAAAAAAAAAAB := rfl

theorem toNat_third1 : third1.toNat = 0x5555555555555555 := rfl

theorem toNat_third2 : third2.toNat = 0xAAAAAAAAAAAAAAAA := rfl

/-- One limb of `div3_mag`: `a − c = 3·q − c'·2^64` with a new borrow `c'` of 0, 1 or 2. -/
theorem div3_limb (a : Limb) (c : Nat) (hc : c ≤ 2) :
    let q := (a - BitVec.ofNat 64 c) * inv3
    let c' : Nat := (if a.toNat < c then 1 else 0) + (if q > third1 then 1 else 0) + (if q > third2 then 1 else 0)
    c' ≤ 2 ∧ (a.toNat : Int) - c = 3 * q.toNat - c' * 2 ^ 64 := by
  intro q c'
  have ha := a.isLt
  have ht : (a - BitVec.ofNat 64 c).toNat = (2 ^ 64 - c + a.toNat) % 2 ^ 64 := by
    rw [BitVec.toNat_sub, BitVec.toNat_ofNat, Nat.mod_eq_of_lt (by omega : c < 2 ^ 64)]
  have hq : q.toNat = (2 ^ 64 - c + a.toNat) % 2 ^ 64 * 0xAAAAAAAAAAAAAAAB % 2 ^ 64 := by
    rw [BitVec.toNat_mul, ht, toNat_inv3]
  have g1 : (q > third1) = (q.toNat > 0x5555555555555555) := by
    rw [GT.gt, BitVec.lt_def, toNat_third1]
  have g2 : (q > third2) = (q.toNat > 0xAAAAAAAAAAAAAAAA) := by
    rw [GT.gt, BitVec.lt_def, toNat_third2]
  have hc' : c' = (if a.toNat < c then 1 else 0) + (if q.toNat > 0x5555555555555555 then 1 else 0) +
      (if q.toNat > 0xAAAAAAAAAAAAAAAA then 1 else 0) := by
    simp only [c', g1, g2]
  rw [hc']
  clear hc' g1 g2
  clear_value c' q
  have htb : (2 ^ 64 - c + a.toNat) % 2 ^ 64 < 2 ^ 64 := Nat.mod_lt _ (by norm_num)
  have hy : (a.toNat : Int) - c = ((2 ^ 64 - c + a.toNat) % 2 ^ 64 : Nat) - (if a.toNat < c then 1 else 0) * 2 ^ 64 := by
    split <;> omega
  generalize (2 ^ 64 - c + a.toNat) % 2 ^ 64 = t at *
  have hw : ∃ w : Int, 3 * (q.toNat : Int) = t + 2 ^ 64 * w :=
    ⟨2 * t - 3 * (t * 0xAAAAAAAAAAAAAAAB / 2 ^ 64 : Nat), by omega⟩
  obtain ⟨w, hw⟩ := hw
  clear hq
  have hqb := q.isLt
  generalize q.toNat = x at *
  have hw3 : w = 0 ∨ w = 1 ∨ w = 2 := by omega
  rw [hy]
  generalize a.toNat = y at *
  rcases hw3 with rfl | rfl | rfl
  all_goals
    constructor
    · split <;> split <;> split <;> omega
    · push_cast
      split <;> split <;> split <;> omega

theorem valLeast_div3Loop (L : List Limb) (c : Nat) (hc : c ≤ 2) :
    ∃ c' : Nat, c' ≤ 2 ∧ (valLeast L : Int) - c = 3 * valLeast (div3Loop L c) - c' * (2 ^ 64) ^ L.length := by
  induction L generalizing c with
  | nil => exact ⟨c, hc, by simp [div3Loop]⟩
  | cons a L ih =>
    have hl := div3_limb a c hc
    dsimp only at hl
    obtain ⟨h1, h2⟩ := hl
    obtain ⟨c', hc', h⟩ := ih _ h1
    refine ⟨c', hc', ?_⟩
    unfold div3Loop
    simp only [valLeast_cons, List.length_cons, pow_succ]
    push_cast at h h2 ⊢
    linear_combination h2 + 2 ^ 64 * h

theorem pow_base_mod_three (n : Nat) : ((2 ^ 64 : Nat)) ^ n % 3 = 1 := by
  rw [Nat.pow_mod]; norm_num

/-- `div3_mag` is the quotient when 3 divides the value (R140). -/
theorem val_div3Mag {P : List Limb} (h : val P % 3 = 0) : val (div3Mag P) = val P / 3 := by
  rw [div3Mag, val_trimLimbs, val_reverse]
  obtain ⟨c, hc, he⟩ := valLeast_div3Loop P.reverse 0 (by omega)
  rw [valLeast_reverse, List.length_reverse] at he
  have h3 := pow_base_mod_three P.length
  have hc0 : c = 0 := by
    have hcast : ((2 : Int) ^ 64) ^ P.length = (((2 ^ 64 : Nat) ^ P.length : Nat) : Int) := by push_cast; rfl
    rw [hcast] at he
    generalize (2 ^ 64 : Nat) ^ P.length = B at *
    interval_cases c
    · rfl
    · omega
    · omega
  subst hc0
  omega

end Sys2Proof.Machine
end

