-- ==== Sys2Proof/Laws/Division.lean ====
section
/-! SUPPORT. The division engine computes floored quotient and remainder (44_division.md R193, R196, R198). -/

namespace Sys2Proof.Machine

theorem two_pow_bitlen_le {v : Nat} (hv : 0 < v) : 2 ^ bitlen v ≤ 2 * v := by
  have hb : 0 < bitlen v := by
    by_contra h
    have := lt_two_pow_bitlen v
    rw [Nat.eq_zero_of_not_pos h] at this
    omega
  have := two_pow_le_of_lt_bitlen (a := v) (k := bitlen v - 1) (by omega)
  calc 2 ^ bitlen v = 2 * 2 ^ (bitlen v - 1) := by rw [← pow_succ']; congr 1; omega
    _ ≤ 2 * v := Nat.mul_le_mul_left _ this

/-- The estimate is sound: it "is 0 only when `r < v << i`" (R197). -/
theorem qbitEstimate_sound {r v i : Nat} (hv : 0 < v) (h : qbitEstimate r v i = false) : r < v * 2 ^ i := by
  simp only [qbitEstimate, ge_iff_le, decide_eq_false_iff_not, not_le] at h
  have h1 := (bitlen_le_iff r (bitlen v + i - 1)).1 (by omega)
  have h2 := two_pow_bitlen_le hv
  have h3 : 2 * 2 ^ (bitlen v + i - 1) = 2 ^ bitlen v * 2 ^ i := by
    rw [← pow_succ', ← pow_add]; congr 1; omega
  have : 2 ^ bitlen v * 2 ^ i ≤ 2 * v * 2 ^ i := Nat.mul_le_mul_right _ h2
  nlinarith

/-- The loop invariant of R196. -/
theorem divBits_eq (v : Nat) (hv : 0 < v) (i q r : Nat) (hr : r < v * 2 ^ i) :
    divBits v i q r = (q + r / v, ((r % v : Nat) : Int)) := by
  induction i generalizing q r with
  | zero =>
    rw [pow_zero, Nat.mul_one] at hr
    rw [divBits, Nat.div_eq_of_lt hr, Nat.mod_eq_of_lt hr, Nat.add_zero]
  | succ i ih =>
    rw [divBits, Int.toNat_natCast]
    split
    · rw [sadd_eq]
      dsimp only
      split
      · rename_i h
        rw [sadd_eq, neg_add_cancel_right]
        exact ih q r (by omega)
      · rename_i h
        rw [pow_succ] at hr
        have hsub : ((r : Int) + -((v * 2 ^ i : Nat) : Int)) = ((r - v * 2 ^ i : Nat) : Int) := by omega
        rw [hsub, ih (q + 2 ^ i) _ (by rw [Nat.sub_lt_iff_lt_add (by omega)]; nlinarith)]
        have hle : v * 2 ^ i ≤ r := by omega
        have hdiv : r / v = (r - v * 2 ^ i) / v + 2 ^ i := by
          conv_lhs => rw [← Nat.sub_add_cancel hle, Nat.add_mul_div_left _ _ hv]
        have hmod : r % v = (r - v * 2 ^ i) % v := by
          conv_lhs => rw [← Nat.sub_add_cancel hle, Nat.add_mul_mod_self_left]
        rw [hdiv, hmod]
        congr 1
        omega
    · rename_i h
      exact ih q r (qbitEstimate_sound hv (by simpa using h))

/-- `div_general` is division (R196). -/
theorem divGeneral_eq {u v : Nat} (hv : 0 < v) (h : v ≤ u) : divGeneral u v = (u / v, ((u % v : Nat) : Int)) := by
  have hb : bitlen v ≤ bitlen u := (bitlen_le_iff v _).2 (lt_of_le_of_lt h (lt_two_pow_bitlen u))
  have hu : u < 2 * (v * 2 ^ (bitlen u - bitlen v)) := by
    have h1 := lt_two_pow_bitlen u
    have h2 := two_pow_bitlen_le hv
    have h3 : 2 ^ bitlen u = 2 ^ bitlen v * 2 ^ (bitlen u - bitlen v) := by rw [← pow_add]; congr 1; omega
    have : 2 ^ bitlen v * 2 ^ (bitlen u - bitlen v) ≤ 2 * v * 2 ^ (bitlen u - bitlen v) := Nat.mul_le_mul_right _ h2
    nlinarith
  unfold divGeneral
  dsimp only
  generalize bitlen u - bitlen v = n at *
  split
  · rename_i hge
    have hle : v * 2 ^ n ≤ u := hge
    rw [sadd_eq, show (u : Int) + -((v * 2 ^ n : Nat) : Int) = ((u - v * 2 ^ n : Nat) : Int) by omega,
      divBits_eq v hv n _ _ (by omega)]
    have hdiv : u / v = (u - v * 2 ^ n) / v + 2 ^ n := by
      conv_lhs => rw [← Nat.sub_add_cancel hle, Nat.add_mul_div_left _ _ hv]
    have hmod : u % v = (u - v * 2 ^ n) % v := by
      conv_lhs => rw [← Nat.sub_add_cancel hle, Nat.add_mul_mod_self_left]
    rw [hdiv, hmod, Nat.add_comm]
  · rename_i hlt
    rw [divBits_eq v hv n _ _ (by omega), Nat.zero_add]

/-- `div_abs` is division of magnitudes (R194). -/
theorem divAbs_eq (u : Nat) {v : Nat} (hv : 0 < v) : divAbs u v = (u / v, ((u % v : Nat) : Int)) := by
  unfold divAbs
  rw [magCmp_eq (canonical_toLimbs u) (canonical_toLimbs v), val_toLimbs, val_toLimbs]
  split
  · rename_i h
    have : u < v := by
      by_contra hc
      unfold Tri.ofInt at h
      rw [if_neg (by omega)] at h
      split at h <;> simp at h
    rw [Nat.div_eq_of_lt this, Nat.mod_eq_of_lt this]
  · rename_i h
    have hle : v ≤ u := by
      by_contra hc
      exact h (Tri.ofInt_of_neg (by omega))
    split
    · rename_i h1
      rw [(bitlen_eq_one_iff v).1 h1, Nat.div_one, Nat.mod_one]; rfl
    · exact divGeneral_eq hv hle

/-- What fixes floored division (R193): the law of R192, and a remainder that is zero or has the sign of the divisor. -/
theorem floor_unique {a b Q R : Int} (h : a = Q * b + R) (hR : (0 ≤ R ∧ R < b) ∨ (b < R ∧ R ≤ 0)) :
    Q = a.fdiv b ∧ R = a.fmod b := by
  have hQ : Q = a.fdiv b := by
    rcases hR with ⟨h0, h1⟩ | ⟨h0, h1⟩
    · rw [Int.fdiv_eq_ediv_of_nonneg _ (by omega), h, Int.add_comm, Int.add_mul_ediv_right _ _ (by omega),
        Int.ediv_eq_zero_of_lt h0 h1, Int.zero_add]
    · rw [← Int.neg_fdiv_neg, Int.fdiv_eq_ediv_of_nonneg _ (by omega), h,
        show -(Q * b + R) = -R + Q * -b by ring, Int.add_mul_ediv_right _ _ (by omega),
        Int.ediv_eq_zero_of_lt (by omega) (by omega), Int.zero_add]
  refine ⟨hQ, ?_⟩
  have := Int.mul_fdiv_add_fmod a b
  rw [← hQ] at this
  linarith

/-- `div_signed` is floored division (R193, R198). -/
theorem divSigned_eq (a : Int) {b : Int} (hb : b ≠ 0) : divSigned a b = (a.fdiv b, a.fmod b) := by
  have hn : 0 < b.natAbs := Int.natAbs_pos.2 hb
  unfold divSigned
  rw [divAbs_eq _ hn]
  dsimp only
  have hdm := Nat.div_add_mod a.natAbs b.natAbs
  have hlt := Nat.mod_lt a.natAbs hn
  generalize a.natAbs / b.natAbs = q at *
  generalize a.natAbs % b.natAbs = r at *
  have hda : (a.natAbs : Int) = b.natAbs * q + r := by exact_mod_cast hdm.symm
  rw [sadd_eq, sadd_eq]
  have key : ∀ Q R : Int, a = Q * b + R → ((0 ≤ R ∧ R < b) ∨ (b < R ∧ R ≤ 0)) → (Q, R) = (a.fdiv b, a.fmod b) := by
    intro Q R h1 h2
    obtain ⟨e1, e2⟩ := floor_unique h1 h2
    rw [← e1, ← e2]
  rcases lt_trichotomy a 0 with ha | ha | ha
  · rw [Int.sign_eq_neg_one_of_neg ha]
    rcases lt_or_gt_of_ne hb with hb' | hb'
    · rw [Int.sign_eq_neg_one_of_neg hb', if_neg (by omega)]
      have e1 : (b.natAbs : Int) = -b := by omega
      have e2 : (a.natAbs : Int) = -a := by omega
      rw [e1, e2] at hda
      exact key _ _ (by linarith) (by omega)
    · rw [Int.sign_eq_one_of_pos hb']
      have e1 : (b.natAbs : Int) = b := by omega
      have e2 : (a.natAbs : Int) = -a := by omega
      rw [e1, e2] at hda
      split
      · exact key _ _ (by linarith) (by omega)
      · rename_i h
        have hr : r = 0 := by
          by_contra hr
          exact h ⟨by norm_num, by omega⟩
        subst hr
        exact key _ _ (by push_cast at hda ⊢; linarith) (by omega)
  · subst ha
    have : r = 0 ∧ q = 0 := by
      simp only [Int.natAbs_zero] at hdm
      have hr : r = 0 := by omega
      refine ⟨hr, ?_⟩
      subst hr
      rcases Nat.mul_eq_zero.1 (by omega : b.natAbs * q = 0) with h | h <;> omega
    obtain ⟨rfl, rfl⟩ := this
    simp
  · rw [Int.sign_eq_one_of_pos ha]
    rcases lt_or_gt_of_ne hb with hb' | hb'
    · rw [Int.sign_eq_neg_one_of_neg hb']
      have e1 : (b.natAbs : Int) = -b := by omega
      have e2 : (a.natAbs : Int) = a := by omega
      rw [e1, e2] at hda
      split
      · exact key _ _ (by linarith) (by omega)
      · rename_i h
        have hr : r = 0 := by
          by_contra hr
          exact h ⟨by norm_num, by omega⟩
        subst hr
        exact key _ _ (by push_cast at hda ⊢; linarith) (by omega)
    · rw [Int.sign_eq_one_of_pos hb', if_neg (by omega)]
      have e1 : (b.natAbs : Int) = b := by omega
      have e2 : (a.natAbs : Int) = a := by omega
      rw [e1, e2] at hda
      exact key _ _ (by linarith) (by omega)

/-- The remainder inside the composite commands, on a positive divisor (R191, R233). -/
theorem floorMod_of_pos (a : Int) {b : Int} (hb : 0 < b) : floorMod a b = a % b := by
  rw [floorMod, divSigned_eq a (by omega)]
  exact Int.fmod_eq_emod_of_nonneg _ (by omega)

theorem toNat_floorMod (u : Nat) {v : Nat} (hv : 0 < v) : (floorMod u v).toNat = u % v := by
  rw [floorMod_of_pos _ (by omega), ← Int.natCast_mod, Int.toNat_natCast]

theorem fdiv_mul_le_natAbs (a : Int) {b : Int} (hb : b ≠ 0) : (a.fdiv b).natAbs ≤ a.natAbs := by
  have h := divSigned_eq a hb
  have hn : 0 < b.natAbs := Int.natAbs_pos.2 hb
  have hm := Int.mul_fdiv_add_fmod a b
  have hlt := Nat.div_le_self a.natAbs b.natAbs
  have hdm := Nat.div_add_mod a.natAbs b.natAbs
  have hml := Nat.mod_lt a.natAbs hn
  have e : a.fdiv b = (divSigned a b).1 := by rw [h]
  rw [e]
  unfold divSigned
  rw [divAbs_eq _ hn]
  dsimp only
  have habs : ∀ x y : Int, ((x.sign * y.sign * (a.natAbs / b.natAbs : Nat)).natAbs) ≤ a.natAbs / b.natAbs := by
    intro x y
    rw [Int.natAbs_mul, Int.natAbs_mul, Int.natAbs_natCast]
    have h1 : x.sign.natAbs ≤ 1 := by rcases Int.sign_trichotomy x with h | h | h <;> simp [h]
    have h2 : y.sign.natAbs ≤ 1 := by rcases Int.sign_trichotomy y with h | h | h <;> simp [h]
    calc x.sign.natAbs * y.sign.natAbs * (a.natAbs / b.natAbs) ≤ 1 * 1 * (a.natAbs / b.natAbs) :=
          Nat.mul_le_mul_right _ (Nat.mul_le_mul h1 h2)
      _ = _ := by ring
  have := habs a b
  split
  · rename_i hc
    rw [sadd_eq]
    dsimp only
    have hr : a.natAbs % b.natAbs ≠ 0 := by
      intro h0
      apply hc.2
      rw [h0]
      simp
    have hb2 : 2 ≤ b.natAbs := by
      by_contra hlt2
      have : b.natAbs = 1 := by omega
      rw [this, Nat.mod_one] at hr
      exact hr rfl
    have hq : a.natAbs / b.natAbs + 1 ≤ a.natAbs := by
      have : 2 * (a.natAbs / b.natAbs) ≤ b.natAbs * (a.natAbs / b.natAbs) := Nat.mul_le_mul_right _ hb2
      omega
    omega
  · dsimp only
    omega

end Sys2Proof.Machine
end

