-- ==== Sys2Proof/Laws/Montgomery.lean ====
section
/-! SUPPORT. The Montgomery datapaths compute what their rules say (45_montgomery.md R212, R213, R216). -/

namespace Sys2Proof.Machine

/-! ### `−N⁻¹ mod β` (R212) -/

theorem newtonStep_dvd {n x k j : Nat} (h : ((2 : Int) ^ k) ∣ 1 - n * x) (h1 : j ≤ 2 * k) (h2 : j ≤ 64) :
    ((2 : Int) ^ j) ∣ 1 - n * (newtonStep n x : Nat) := by
  have hsq : ((2 : Int) ^ j) ∣ (1 - n * x) * (1 - n * x) := by
    refine dvd_trans (pow_dvd_pow 2 h1) ?_
    rw [two_mul, pow_add]
    exact mul_dvd_mul h h
  have hj : ((2 : Int) ^ j) ∣ 2 ^ 64 := pow_dvd_pow 2 h2
  unfold newtonStep
  have hm := Nat.mod_lt (n * x) (by norm_num : 0 < 2 ^ 64)
  have d1 := Nat.div_add_mod (n * x) (2 ^ 64)
  have d2 := Nat.div_add_mod (x * (2 + (2 ^ 64 - n * x % 2 ^ 64))) (2 ^ 64)
  generalize x * (2 + (2 ^ 64 - n * x % 2 ^ 64)) % 2 ^ 64 = y at *
  generalize x * (2 + (2 ^ 64 - n * x % 2 ^ 64)) / 2 ^ 64 = c at *
  generalize hr : n * x % 2 ^ 64 = r at *
  generalize n * x / 2 ^ 64 = d at *
  have e1 : (2 : Int) ^ 64 * d + r = n * x := by exact_mod_cast d1
  have e2 : (2 : Int) ^ 64 * c + y = x * (2 + (2 ^ 64 - r)) := by
    have : ((2 ^ 64 - r : Nat) : Int) = 2 ^ 64 - r := by omega
    rw [← this]
    exact_mod_cast d2
  have : (1 : Int) - n * y = (1 - n * x) * (1 - n * x) + 2 ^ 64 * (n * c - n * x - n * x * d) := by
    have e2' : (y : Int) = x * (2 + (2 ^ 64 - r)) - 2 ^ 64 * c := by linarith
    have e1' : (r : Int) = n * x - 2 ^ 64 * d := by linarith
    rw [e2', e1']
    ring
  rw [this]
  exact dvd_add hsq (dvd_mul_of_dvd_left hj _)

theorem odd_sq_dvd {n : Nat} (h : n % 2 = 1) : ((2 : Int) ^ 3) ∣ 1 - n * n := by
  obtain ⟨m, rfl⟩ : ∃ m, n = 2 * m + 1 := ⟨n / 2, by omega⟩
  have h2 : (m * (m + 1)) % 2 = 0 := Nat.even_iff.1 (Nat.even_mul_succ_self m)
  obtain ⟨c, hc⟩ : ∃ c, m * (m + 1) = 2 * c := ⟨m * (m + 1) / 2, by omega⟩
  refine ⟨-c, ?_⟩
  have : ((m : Int) * (m + 1)) = 2 * c := by exact_mod_cast hc
  push_cast
  linear_combination (-4) * this

theorem negInv64_lt (N : Nat) : negInv64 N < 2 ^ 64 := Nat.mod_lt _ (by norm_num)

/-- "the unique `m'` with `0 ≤ m' < β` and `(N mod β)·m' ≡ −1 (mod β)`" (R212), for odd `N`. -/
theorem negInv64_spec {N : Nat} (h : N % 2 = 1) : (N * negInv64 N + 1) % 2 ^ 64 = 0 := by
  have hn : N % 2 ^ 64 % 2 = 1 := by omega
  have h1 := newtonStep_dvd (odd_sq_dvd hn) (by norm_num : 6 ≤ 2 * 3) (by norm_num)
  have h2 := newtonStep_dvd h1 (by norm_num : 12 ≤ 2 * 6) (by norm_num)
  have h3 := newtonStep_dvd h2 (by norm_num : 24 ≤ 2 * 12) (by norm_num)
  have h4 := newtonStep_dvd h3 (by norm_num : 48 ≤ 2 * 24) (by norm_num)
  have h5 := newtonStep_dvd h4 (by norm_num : 64 ≤ 2 * 48) (by norm_num)
  unfold negInv64
  dsimp only
  have hlt : newtonStep (N % 2 ^ 64) (newtonStep (N % 2 ^ 64) (newtonStep (N % 2 ^ 64) (newtonStep (N % 2 ^ 64)
      (newtonStep (N % 2 ^ 64) (N % 2 ^ 64))))) < 2 ^ 64 := Nat.mod_lt _ (by norm_num)
  generalize newtonStep (N % 2 ^ 64) (newtonStep (N % 2 ^ 64) (newtonStep (N % 2 ^ 64) (newtonStep (N % 2 ^ 64)
      (newtonStep (N % 2 ^ 64) (N % 2 ^ 64))))) = z at *
  have key : ((2 : Int) ^ 64) ∣ (N * ((2 ^ 64 - z) % 2 ^ 64 : Nat) + 1 : Int) := by
    have d1 := Nat.div_add_mod N (2 ^ 64)
    have d2 := Nat.div_add_mod (2 ^ 64 - z) (2 ^ 64)
    generalize (2 ^ 64 - z) % 2 ^ 64 = y at *
    generalize (2 ^ 64 - z) / 2 ^ 64 = c at *
    generalize N % 2 ^ 64 = n at *
    generalize N / 2 ^ 64 = d at *
    obtain ⟨w, hw⟩ := h5
    have e1 : (2 : Int) ^ 64 * d + n = N := by exact_mod_cast d1
    have e2 : (2 : Int) ^ 64 * c + y = 2 ^ 64 - z := by omega
    refine ⟨w + d * y + n * (1 - c), ?_⟩
    have e2' : (y : Int) = 2 ^ 64 - z - 2 ^ 64 * c := by linarith
    rw [← e1]
    linear_combination hw + (n : Int) * e2'
  have : ((2 ^ 64 : Nat) : Int) ∣ ((N * ((2 ^ 64 - z) % 2 ^ 64) + 1 : Nat) : Int) := by exact_mod_cast key
  exact Nat.mod_eq_zero_of_dvd (Int.natCast_dvd_natCast.1 this)

/-! ### REDC (R211, R213) -/

/-- The division by `β` is exact (R211). -/
theorem redc_step_exact {N m' : Nat} (h : (N * m' + 1) % 2 ^ 64 = 0) (A xi Y : Nat) :
    (A + xi * Y + (A % 2 ^ 64 + xi * (Y % 2 ^ 64)) * m' % 2 ^ 64 * N) % 2 ^ 64 = 0 := by
  have hz : ((N * m' + 1 : Nat) : ZMod (2 ^ 64)) = 0 := (ZMod.natCast_eq_zero_iff _ _).2 (Nat.dvd_of_mod_eq_zero h)
  push_cast at hz
  apply Nat.mod_eq_zero_of_dvd
  rw [← ZMod.natCast_eq_zero_iff]
  push_cast
  simp only [ZMod.natCast_mod, Nat.cast_add, Nat.cast_mul]
  linear_combination (A + xi * Y : ZMod (2 ^ 64)) * hz

/-- The recurrence (R213): what `k` steps add, up to a multiple of `N`, and the bound of the accumulator. -/
theorem redcLoop_spec {N m' : Nat} (h : (N * m' + 1) % 2 ^ 64 = 0) (Y k X A : Nat) (hA : A < N + Y) :
    (∃ c, redcLoop N m' Y k X A * (2 ^ 64) ^ k = A + X % (2 ^ 64) ^ k * Y + c * N) ∧ redcLoop N m' Y k X A < N + Y := by
  induction k generalizing X A with
  | zero => exact ⟨⟨0, by simp [redcLoop, Nat.mod_one]⟩, hA⟩
  | succ k ih =>
    unfold redcLoop
    dsimp only
    have hx := Nat.mod_lt X (by norm_num : 0 < 2 ^ 64)
    have hu := Nat.mod_lt ((A % 2 ^ 64 + X % 2 ^ 64 * (Y % 2 ^ 64)) * m') (by norm_num : 0 < 2 ^ 64)
    have hex := redc_step_exact h A (X % 2 ^ 64) Y
    have hmod : X % (2 ^ 64) ^ (k + 1) = X % 2 ^ 64 + 2 ^ 64 * (X / 2 ^ 64 % (2 ^ 64) ^ k) := by
      rw [pow_succ', Nat.mod_mul]
    generalize X % 2 ^ 64 = xi at *
    generalize (A % 2 ^ 64 + xi * (Y % 2 ^ 64)) * m' % 2 ^ 64 = ui at *
    have hdiv : (A + xi * Y + ui * N) / 2 ^ 64 * 2 ^ 64 = A + xi * Y + ui * N :=
      Nat.div_mul_cancel (Nat.dvd_of_mod_eq_zero hex)
    have hbound : (A + xi * Y + ui * N) / 2 ^ 64 < N + Y := by
      rw [Nat.div_lt_iff_lt_mul (by norm_num)]
      have b1 : xi * Y ≤ (2 ^ 64 - 1) * Y := Nat.mul_le_mul_right _ (by omega)
      have b2 : ui * N ≤ (2 ^ 64 - 1) * N := Nat.mul_le_mul_right _ (by omega)
      omega
    obtain ⟨⟨c, hc⟩, hlt⟩ := ih (X / 2 ^ 64) _ hbound
    refine ⟨⟨ui + c * 2 ^ 64, ?_⟩, hlt⟩
    rw [hmod, pow_succ (2 ^ 64) k, ← Nat.mul_assoc, hc, Nat.add_mul, Nat.add_mul, hdiv]
    ring

/-- `R = 2^(64·limb_count(N))` (R210). -/
def montR (N : Nat) : Nat := (2 ^ 64) ^ (toLimbs N).length

theorem lt_montR (N : Nat) : N < montR N := (length_toLimbs_le_iff N _).1 le_rfl

theorem coprime_montR {N : Nat} (h : N % 2 = 1) : Nat.Coprime N (montR N) := by
  have h2 : Nat.Coprime N 2 := Nat.coprime_two_right.2 (Nat.odd_iff.2 h)
  exact Nat.Coprime.pow_right _ (Nat.Coprime.pow_right _ h2)

/-- `redc` is the Montgomery product below `N` (R210, R213). -/
theorem redc_spec {N X Y : Nat} (hN : N % 2 = 1) (hX : X < montR N) (hY : Y ≤ N) :
    redc N X Y * montR N ≡ X * Y [MOD N] ∧ redc N X Y < N := by
  have hpos : 0 < N := by omega
  obtain ⟨⟨c, hc⟩, hlt⟩ := redcLoop_spec (negInv64_spec hN) Y (toLimbs N).length X 0 (by omega)
  have hX' : X % (2 ^ 64) ^ (toLimbs N).length = X := Nat.mod_eq_of_lt hX
  rw [hX', Nat.zero_add] at hc
  unfold redc montR
  dsimp only
  generalize redcLoop N (negInv64 N) Y (toLimbs N).length X 0 = A at *
  have hmod : A * (2 ^ 64) ^ (toLimbs N).length ≡ X * Y [MOD N] := by
    rw [hc]
    simp [Nat.ModEq]
  split
  · rename_i hge
    refine ⟨?_, by omega⟩
    have : (A - N) * (2 ^ 64) ^ (toLimbs N).length + N * (2 ^ 64) ^ (toLimbs N).length =
        A * (2 ^ 64) ^ (toLimbs N).length := by rw [← Nat.add_mul, Nat.sub_add_cancel hge]
    rw [← this] at hmod
    exact (Nat.ModEq.symm (by simp [Nat.ModEq])).trans hmod
  · exact ⟨hmod, by omega⟩

/-- The Montgomery product is unique below `N` (R210: "the unique `Z`"). -/
theorem mont_unique {N Z Z' P : Nat} (hN : N % 2 = 1) (h : Z * montR N ≡ P [MOD N]) (h' : Z' * montR N ≡ P [MOD N])
    (hz : Z < N) (hz' : Z' < N) : Z = Z' := by
  have := Nat.ModEq.cancel_right_of_coprime (coprime_montR hN) (h.trans h'.symm)
  rwa [Nat.ModEq, Nat.mod_eq_of_lt hz, Nat.mod_eq_of_lt hz'] at this

/-! ### Square-and-multiply (R215, R216) -/

/-- A product of two Montgomery forms is the Montgomery form of the product (R216). -/
theorem redc_form {N x y v w : Nat} (hN : N % 2 = 1) (hx : x < N) (hy : y < N) (hv : x ≡ v * montR N [MOD N])
    (hw : y ≡ w * montR N [MOD N]) : redc N x y ≡ v * w * montR N [MOD N] ∧ redc N x y < N := by
  obtain ⟨h1, h2⟩ := redc_spec hN (lt_trans hx (lt_montR N)) hy.le
  refine ⟨Nat.ModEq.cancel_right_of_coprime (coprime_montR hN) (h1.trans ?_), h2⟩
  refine (hv.mul hw).trans ?_
  rw [show v * montR N * (w * montR N) = v * w * montR N * montR N by ring]

theorem expLoop_spec {N e bm b : Nat} (hN : N % 2 = 1) (hbm : bm ≡ b * montR N [MOD N]) (hbmlt : bm < N)
    (k acc v : Nat) (hacc : acc ≡ v * montR N [MOD N]) (hlt : acc < N) :
    expLoop N e bm k acc ≡ v ^ 2 ^ k * b ^ (e % 2 ^ k) * montR N [MOD N] ∧ expLoop N e bm k acc < N := by
  induction k generalizing acc v with
  | zero => simpa [expLoop, Nat.mod_one] using ⟨hacc, hlt⟩
  | succ k ih =>
    unfold expLoop
    dsimp only
    obtain ⟨s1, s2⟩ := redc_form hN hlt hlt hacc hacc
    have hbit : e % 2 ^ (k + 1) = e % 2 ^ k + (if e.testBit k then 2 ^ k else 0) := by
      rw [Nat.mod_pow_succ, Nat.testBit_eq_decide_div_mod_eq]
      rcases Nat.mod_two_eq_zero_or_one (e / 2 ^ k) with h | h <;> simp [h]
    split
    · rename_i hb
      obtain ⟨m1, m2⟩ := redc_form hN s2 hbmlt s1 hbm
      obtain ⟨r1, r2⟩ := ih _ _ m1 m2
      refine ⟨?_, r2⟩
      rw [hbit, if_pos hb]
      rw [show v ^ 2 ^ (k + 1) * b ^ (e % 2 ^ k + 2 ^ k) = (v * v * b) ^ 2 ^ k * b ^ (e % 2 ^ k) by
        rw [pow_succ 2 k, pow_mul, pow_add, mul_pow, mul_pow, ← pow_mul, Nat.mul_comm (2 ^ k) 2, pow_mul]
        ring]
      exact r1
    · rename_i hb
      obtain ⟨r1, r2⟩ := ih _ _ s1 s2
      refine ⟨?_, r2⟩
      rw [hbit, if_neg hb, Nat.add_zero]
      rw [show v ^ 2 ^ (k + 1) = (v * v) ^ 2 ^ k by rw [pow_succ 2 k, Nat.mul_comm, pow_mul, pow_two]]
      exact r1

/-- `modexp_core` is modular exponentiation (R216, R218): the result and `R² mod N`. -/
theorem modexpCore_eq (b : Int) (e : Nat) {N : Nat} (hN : N % 2 = 1) :
    modexpCore b e N = ((b ^ e % N).toNat, 2 ^ (128 * (toLimbs N).length) % N) := by
  have hpos : 0 < N := by omega
  have hZ : (0 : Int) < N := by omega
  unfold modexpCore
  dsimp only
  have hR2 : (floorMod (2 ^ (128 * (toLimbs N).length)) N).toNat = 2 ^ (128 * (toLimbs N).length) % N := by
    have := toNat_floorMod (2 ^ (128 * (toLimbs N).length)) hpos
    push_cast at this
    exact this
  have hsq : 2 ^ (128 * (toLimbs N).length) = montR N * montR N := by
    rw [montR, ← pow_add, ← pow_mul]; congr 1; ring
  rw [hR2, floorMod_of_pos b hZ]
  have hb1 : (b % N).toNat < N := by
    have := Int.emod_lt_of_pos b hZ
    have := Int.emod_nonneg b (by omega : (N : Int) ≠ 0)
    omega
  have hR2lt : 2 ^ (128 * (toLimbs N).length) % N < N := Nat.mod_lt _ hpos
  have hR2m : 2 ^ (128 * (toLimbs N).length) % N ≡ montR N * montR N [MOD N] := by
    rw [← hsq]; exact Nat.mod_modEq _ _
  generalize 2 ^ (128 * (toLimbs N).length) % N = R2 at *
  obtain ⟨f1, f2⟩ := redc_spec hN (lt_trans hb1 (lt_montR N)) hR2lt.le
  have hbm : redc N (b % N).toNat R2 ≡ (b % N).toNat * montR N [MOD N] := by
    refine Nat.ModEq.cancel_right_of_coprime (coprime_montR hN) (f1.trans ?_)
    rw [Nat.mul_assoc]
    exact Nat.ModEq.mul_left _ hR2m
  obtain ⟨g1, g2⟩ := redc_spec (Y := 1) hN (lt_trans hR2lt (lt_montR N)) hpos
  have hacc : redc N R2 1 ≡ 1 * montR N [MOD N] := by
    refine Nat.ModEq.cancel_right_of_coprime (coprime_montR hN) (g1.trans ?_)
    rw [Nat.mul_one, Nat.one_mul]
    exact hR2m
  obtain ⟨l1, l2⟩ := expLoop_spec (e := e) hN hbm f2 (bitlen e) _ 1 hacc g2
  rw [one_pow, Nat.one_mul, Nat.mod_eq_of_lt (lt_two_pow_bitlen e)] at l1
  obtain ⟨o1, o2⟩ := redc_spec (Y := 1) hN (lt_trans l2 (lt_montR N)) hpos
  have hout := Nat.ModEq.cancel_right_of_coprime (coprime_montR hN) (o1.trans (by rw [Nat.mul_one]; exact l1))
  rw [Nat.ModEq, Nat.mod_eq_of_lt o2] at hout
  rw [hout]
  congr 1
  have hc : (((b % N).toNat ^ e % N : Nat) : Int) = b ^ e % N := by
    push_cast
    rw [Int.toNat_of_nonneg (Int.emod_nonneg b (by omega))]
    exact (Int.ModEq.pow e (Int.mod_modEq b N))
  rw [← hc, Int.toNat_natCast]

end Sys2Proof.Machine
end

