-- ==== Sys2Proof/Laws/Multiplication.lean ====
section
/-! SUPPORT. The three multiplication datapaths compute the product (43_multiplication.md R160, R165 to R167, R171 to R176). -/

namespace Sys2Proof.Machine

/-! ### Schoolbook (R160) -/

/-- The bound of R160: the double-width accumulator "never overflows 128 bits". -/
theorem mul_step_bound {p q s c : Nat} (hp : p < 2 ^ 64) (hq : q < 2 ^ 64) (hs : s < 2 ^ 64) (hc : c < 2 ^ 64) :
    (p * q + s + c) / 2 ^ 64 < 2 ^ 64 := by
  rw [Nat.div_lt_iff_lt_mul (by norm_num)]
  have : p * q ≤ (2 ^ 64 - 1) * (2 ^ 64 - 1) := Nat.mul_le_mul (by omega) (by omega)
  omega

theorem mulRow_spec (p : Limb) (Q S : List Limb) (c : Nat) (hS : S.length = Q.length) (hc : c < 2 ^ 64) :
    valLeast (mulRow p Q S c) = p.toNat * valLeast Q + valLeast S + c ∧ (mulRow p Q S c).length = Q.length + 1 := by
  induction Q generalizing S c with
  | nil =>
    have : S = [] := List.length_eq_zero_iff.1 hS
    subst this
    simp only [mulRow, valLeast_cons, valLeast_nil, BitVec.toNat_ofNat, Nat.mod_eq_of_lt hc, List.length_cons,
      List.length_nil, Nat.mul_zero, Nat.add_zero, Nat.zero_add, and_self]
  | cons q Q ih =>
    cases S with
    | nil => simp at hS
    | cons d S =>
      obtain ⟨h1, h2⟩ := ih S ((p.toNat * q.toNat + d.toNat + c) / 2 ^ 64) (by simpa using hS)
        (mul_step_bound p.isLt q.isLt d.isLt hc)
      refine ⟨?_, by simp only [mulRow, List.headD_cons, List.tail_cons, List.length_cons, h2]⟩
      simp only [mulRow, List.headD_cons, List.tail_cons, valLeast_cons, h1, BitVec.toNat_ofNat]
      have := Nat.mod_add_div (p.toNat * q.toNat + d.toNat + c) (2 ^ 64)
      generalize (p.toNat * q.toNat + d.toNat + c) / 2 ^ 64 = x at *
      generalize (p.toNat * q.toNat + d.toNat + c) % 2 ^ 64 = y at *
      ring_nf at this ⊢
      linarith

theorem valLeast_mulLoop (P Q S : List Limb) (hS : S.length = Q.length) :
    valLeast (mulLoop P Q S) = valLeast P * valLeast Q + valLeast S := by
  induction P generalizing S with
  | nil => simp [mulLoop]
  | cons p P ih =>
    obtain ⟨h1, h2⟩ := mulRow_spec p Q S 0 hS (by norm_num)
    unfold mulLoop
    dsimp only
    cases hr : mulRow p Q S 0 with
    | nil => rw [hr] at h2; simp at h2
    | cons d R =>
      rw [hr] at h1 h2
      simp only [valLeast_cons, List.length_cons, Nat.add_right_cancel_iff] at h1 h2
      simp only [List.headD_cons, List.tail_cons, valLeast_cons, ih R h2]
      linarith

theorem valLeast_replicate_zero (n : Nat) : valLeast (List.replicate n 0) = 0 := by
  induction n with
  | zero => rfl
  | succ n ih => rw [List.replicate_succ, valLeast_cons, ih]; rfl

theorem canonical_mulSchool (P Q : List Limb) : Canonical (mulSchool P Q) := canonical_trimLimbs _

/-- `mul_school` is the product (R160). -/
@[simp] theorem val_mulSchool (P Q : List Limb) : val (mulSchool P Q) = val P * val Q := by
  rw [mulSchool, val_trimLimbs, val_reverse, valLeast_mulLoop _ _ _ (by simp), valLeast_reverse, valLeast_reverse,
    valLeast_replicate_zero, Nat.add_zero]

/-! ### Karatsuba (R165 to R167) -/

/-- `val(P) = val(high)·β^m2 + val(low)` (R166). -/
theorem val_karatsubaSplit (P : List Limb) (m2 : Nat) :
    val P = val (karatsubaSplit P m2).1 * (2 ^ 64) ^ m2 + val (karatsubaSplit P m2).2 := by
  unfold karatsubaSplit
  split
  · simp
  · rename_i h
    have hl : (P.drop (P.length - m2)).length = m2 := by simp; omega
    conv_lhs => rw [← List.take_append_drop (P.length - m2) P, val_append, hl]

/-- The recombination identity of R167. -/
theorem kar_identity (h0 l0 h1 l1 B : Nat) :
    h0 * h1 * B ^ 2 + ((l0 + h0) * (l1 + h1) - h0 * h1 - l0 * l1) * B + l0 * l1 = (h0 * B + l0) * (h1 * B + l1) := by
  have : (l0 + h0) * (l1 + h1) - h0 * h1 - l0 * l1 = l0 * h1 + h0 * l1 := by
    have : (l0 + h0) * (l1 + h1) = l0 * h1 + h0 * l1 + h0 * h1 + l0 * l1 := by ring
    omega
  rw [this]
  ring

theorem val_karFuel (fuel : Nat) (P Q : List Limb) : val (karFuel fuel P Q) = val P * val Q := by
  induction fuel generalizing P Q with
  | zero => exact val_mulSchool P Q
  | succ fuel ih =>
    unfold karFuel
    rw [← val_trimLimbs P, ← val_trimLimbs Q]
    generalize trimLimbs P = P'
    generalize trimLimbs Q = Q'
    dsimp only
    split
    · rename_i h
      rcases h with h | h <;> simp [List.length_eq_zero_iff.1 h]
    split
    · exact val_mulSchool P' Q'
    · have hP := val_karatsubaSplit P' (max P'.length Q'.length / 2)
      have hQ := val_karatsubaSplit Q' (max P'.length Q'.length / 2)
      generalize max P'.length Q'.length / 2 = m2 at *
      have hmul : val (karatsubaSplit P' m2).1 * val (karatsubaSplit Q' m2).1 ≤
          (val (karatsubaSplit P' m2).2 + val (karatsubaSplit P' m2).1) *
            (val (karatsubaSplit Q' m2).2 + val (karatsubaSplit Q' m2).1) := by
        apply Nat.mul_le_mul <;> omega
      have hmul2 : val (karatsubaSplit P' m2).2 * val (karatsubaSplit Q' m2).2 ≤
          (val (karatsubaSplit P' m2).2 + val (karatsubaSplit P' m2).1) *
            (val (karatsubaSplit Q' m2).2 + val (karatsubaSplit Q' m2).1) -
          val (karatsubaSplit P' m2).1 * val (karatsubaSplit Q' m2).1 := by
        apply Nat.le_sub_of_add_le
        nlinarith
      rw [val_toLimbs, val_magSub, val_magSub]
      · simp only [ih, val_magAdd, val_trimLimbs]
        conv_rhs => rw [hP, hQ]
        rw [← kar_identity, pow_mul, pow_right_comm]
      all_goals simp only [ih, val_magAdd, val_trimLimbs]
      · exact hmul
      · rw [val_magSub]
        all_goals simp only [ih, val_magAdd, val_trimLimbs]
        · exact hmul2
        · exact hmul

/-- `kar` is the product (R167). -/
@[simp] theorem val_kar (P Q : List Limb) : val (kar P Q) = val P * val Q := val_karFuel _ P Q

/-! ### Toom-Cook-3 (R171 to R176) -/

/-- A signed product is the product (R162, R173). -/
@[simp] theorem smul_eq (a b : Int) : smul a b = a * b := by
  unfold smul
  rw [val_mulSchool, val_toLimbs, val_toLimbs, Nat.cast_mul]
  have e1 := Int.sign_mul_natAbs a
  have e2 := Int.sign_mul_natAbs b
  calc a.sign * b.sign * ((a.natAbs : Int) * b.natAbs) = (a.sign * a.natAbs) * (b.sign * b.natAbs) := by ring
    _ = a * b := by rw [e1, e2]

theorem sign_mul_div_of_dvd {v : Int} {k : Nat} (hk : 0 < k) (h : (k : Int) ∣ v) : v.sign * ((v.natAbs / k : Nat) : Int) = v / k := by
  obtain ⟨c, rfl⟩ := h
  have hk' : (k : Int) ≠ 0 := by omega
  have hs : (k : Int).sign = 1 := Int.sign_eq_one_of_pos (by omega)
  rw [Int.mul_ediv_cancel_left _ hk', Int.natAbs_mul, Int.natAbs_natCast, Nat.mul_div_cancel_left _ hk, Int.sign_mul, hs,
    one_mul, Int.sign_mul_natAbs]

/-- The exact division by 2 (R174). -/
theorem half_eq {v : Int} (h : 2 ∣ v) : half v = v / 2 := by
  unfold half
  rw [val_shrMag, val_toLimbs, pow_one]
  exact sign_mul_div_of_dvd (k := 2) (by norm_num) h

/-- The exact division by 3 (R141, R174). -/
theorem third_eq {v : Int} (h : 3 ∣ v) : third v = v / 3 := by
  unfold third
  rw [val_div3Mag (by rw [val_toLimbs]; omega), val_toLimbs]
  exact sign_mul_div_of_dvd (k := 3) (by norm_num) h

/-- `m = m2·B^2 + m1·B + m0` (R171). -/
theorem toomSplit_eq (m k : Nat) :
    m = (toomSplit m k).2.2 * (2 ^ (64 * k)) ^ 2 + (toomSplit m k).2.1 * 2 ^ (64 * k) + (toomSplit m k).1 := by
  unfold toomSplit
  dsimp only
  generalize 2 ^ (64 * k) = B
  have h1 := Nat.div_add_mod m B
  have h2 := Nat.div_add_mod (m / B) B
  rw [Nat.div_div_eq_div_mul, ← pow_two] at h2
  calc m = B * (B * (m / B ^ 2) + m / B % B) + m % B := by rw [h2, h1]
    _ = _ := by ring

/-- The values at the five points (R172). -/
theorem toomEval_eq (m0 m1 m2 : Int) :
    toomEval m0 m1 m2 = ⟨m0, m2 + m1 + m0, m2 - m1 + m0, 4 * m2 - 2 * m1 + m0, m2⟩ := by
  simp only [toomEval, timesNeg2, sadd_eq, FivePoints.mk.injEq, true_and, and_true]
  refine ⟨?_, ?_⟩ <;> ring

/-- Bodrato's sequence inverts the evaluation (R174, R176). -/
theorem toomInterp_eq (r0 r1 r2 r3 r4 : Int) :
    toomInterp ⟨r0, r4 + r3 + r2 + r1 + r0, r4 - r3 + r2 - r1 + r0, 16 * r4 - 8 * r3 + 4 * r2 - 2 * r1 + r0, r4⟩ =
      ⟨r0, r1, r2, r3, r4⟩ := by
  have e3 : third (16 * r4 - 8 * r3 + 4 * r2 - 2 * r1 + r0 + -(r4 + r3 + r2 + r1 + r0)) = 5 * r4 - 3 * r3 + r2 - r1 := by
    rw [third_eq] <;> omega
  have e1 : half (r4 + r3 + r2 + r1 + r0 + -(r4 - r3 + r2 - r1 + r0)) = r3 + r1 := by
    rw [half_eq] <;> omega
  have e2 : half (r4 - r3 + r2 - r1 + r0 + -r0 + -(5 * r4 - 3 * r3 + r2 - r1)) = r3 - 2 * r4 := by
    rw [half_eq] <;> omega
  simp only [toomInterp, sadd_eq, e3, e1, e2, FiveCoefficients.mk.injEq, true_and, and_true]
  refine ⟨?_, ?_, ?_⟩ <;> ring

theorem toomRecompose_eq (r0 r1 r2 r3 r4 : Int) (k : Nat) :
    toomRecompose ⟨r0, r1, r2, r3, r4⟩ k =
      (((r4 * 2 ^ (64 * k) + r3) * 2 ^ (64 * k) + r2) * 2 ^ (64 * k) + r1) * 2 ^ (64 * k) + r0 := by
  simp only [toomRecompose, sadd_eq]

/-- The Toom-Cook-3 datapath is the product, whatever the number of limbs it splits by (R176). -/
@[simp] theorem toomMag_eq (a b n : Nat) : toomMag a b n = a * b := by
  have ha := toomSplit_eq a ((n + 2) / 3)
  have hb := toomSplit_eq b ((n + 2) / 3)
  unfold toomMag
  dsimp only
  generalize toomSplit a ((n + 2) / 3) = A at *
  generalize toomSplit b ((n + 2) / 3) = B at *
  obtain ⟨a0, a1, a2⟩ := A
  obtain ⟨b0, b1, b2⟩ := B
  simp only [toomEval_eq, toomPointwise, smul_eq] at ha hb ⊢
  rw [show (⟨(a0 : Int) * b0, (a2 + a1 + a0) * (b2 + b1 + b0), (a2 - a1 + a0) * (b2 - b1 + b0),
      (4 * a2 - 2 * a1 + a0) * (4 * b2 - 2 * b1 + b0), a2 * b2⟩ : FivePoints) =
      (let r0 : Int := a0 * b0
       let r1 : Int := a0 * b1 + a1 * b0
       let r2 : Int := a0 * b2 + a1 * b1 + a2 * b0
       let r3 : Int := a1 * b2 + a2 * b1
       let r4 : Int := a2 * b2
       ⟨r0, r4 + r3 + r2 + r1 + r0, r4 - r3 + r2 - r1 + r0, 16 * r4 - 8 * r3 + 4 * r2 - 2 * r1 + r0, r4⟩) by
    simp only [FivePoints.mk.injEq, true_and, and_true]
    refine ⟨?_, ?_, ?_⟩ <;> ring]
  simp only [toomInterp_eq, toomRecompose_eq]
  conv_rhs => rw [ha, hb]
  push_cast
  ring

end Sys2Proof.Machine
end

