-- ==== Sys2Proof/Laws/NumberTheory.lean ====
section
/-! SUPPORT. Lehmer's algorithm computes the greatest common divisor within its fuel (46_gcd.md R231 to R234). A Lehmer step is a run of
Euclid's steps: the true pair lies between the two proxy pairs, so a quotient on which both agree is its quotient too. -/

namespace Sys2Proof.Machine

/-! ### Euclid's steps -/

/-- A pair that stands after at least one of Euclid's steps from `(u, v)`. -/
structure Later (u v x y : Int) : Prop where
  nonneg : 0 ≤ y
  lt : y < x
  le : x ≤ v
  gcd : Int.gcd x y = Int.gcd u v
  half : 2 * (x * y) ≤ u * v

theorem gcd_sub_mul (x y q : Int) : Int.gcd y (x - q * y) = Int.gcd x y := by
  rw [Int.gcd_comm x y, show x - q * y = x + (-q) * y by ring]
  simp

/-- The first step. -/
theorem Later.first {u v q : Int} (huv : v ≤ u) (h0 : 0 ≤ u - q * v) (h1 : u - q * v < v) : Later u v v (u - q * v) where
  nonneg := h0
  lt := h1
  le := le_rfl
  gcd := gcd_sub_mul u v q
  half := by
    have hq : 1 ≤ q := by
      by_contra hc
      have : q * v ≤ 0 := Int.mul_nonpos_of_nonpos_of_nonneg (by omega) (by omega)
      omega
    have : v ≤ q * v := by nlinarith
    nlinarith

/-- A further step. -/
theorem Later.next {u v x y q : Int} (h : Later u v x y) (h0 : 0 ≤ x - q * y) (h1 : x - q * y < y) :
    Later u v y (x - q * y) where
  nonneg := h0
  lt := h1
  le := by have := h.lt; have := h.le; omega
  gcd := (gcd_sub_mul x y q).trans h.gcd
  half := by
    have := h.half
    have := h.lt
    have := h.nonneg
    nlinarith

/-! ### The proxies (R232) -/

/-- The proxies that belong to the cofactors, for the leading parts `ut0` and `vt0`. -/
def Proxies.Fits (ut0 vt0 : Int) (p : Proxies) : Prop :=
  p.ut = p.AA * ut0 + p.BB * vt0 ∧ p.vt = p.CC * ut0 + p.DD * vt0

/-- Both proxy pairs are in the order of a pair after a step of Euclid's. -/
def Proxies.Ordered (p : Proxies) : Prop :=
  (0 ≤ p.vt + p.CC ∧ p.vt + p.CC < p.ut + p.AA) ∧ (0 ≤ p.vt + p.DD ∧ p.vt + p.DD < p.ut + p.BB)

/-- The true pair lies between the proxy pairs. -/
theorem Proxies.true_pair {u v ut0 vt0 : Int} {p : Proxies} (hp : p.Fits ut0 vt0) (ho : p.Ordered)
    (hu0 : 0 ≤ ut0) (hv0 : 0 ≤ vt0) (ha : 0 ≤ u * (vt0 + 1) - v * ut0) (hb : 0 ≤ v * (ut0 + 1) - u * vt0) (hs : 0 < u + v) :
    0 ≤ p.CC * u + p.DD * v ∧ p.CC * u + p.DD * v < p.AA * u + p.BB * v := by
  obtain ⟨e1, e2⟩ := hp
  obtain ⟨⟨a1, a2⟩, b1, b2⟩ := ho
  generalize hA : u * (vt0 + 1) - v * ut0 = a at *
  generalize hB : v * (ut0 + 1) - u * vt0 = b at *
  have hab : 0 < a + b := by rw [← hA, ← hB]; linarith
  have hW : 0 < ut0 + vt0 + 1 := by omega
  have hT : (ut0 + vt0 + 1) * (p.AA * u + p.BB * v) = a * (p.ut + p.AA) + b * (p.ut + p.BB) := by
    rw [e1, ← hA, ← hB]; ring
  have hU : (ut0 + vt0 + 1) * (p.CC * u + p.DD * v) = a * (p.vt + p.CC) + b * (p.vt + p.DD) := by
    rw [e2, ← hA, ← hB]; ring
  constructor
  · have : 0 ≤ (ut0 + vt0 + 1) * (p.CC * u + p.DD * v) := by
      rw [hU]; exact add_nonneg (mul_nonneg ha a1) (mul_nonneg hb b1)
    exact nonneg_of_mul_nonneg_right this hW
  · have : (ut0 + vt0 + 1) * (p.CC * u + p.DD * v) < (ut0 + vt0 + 1) * (p.AA * u + p.BB * v) := by
      rw [hT, hU]
      have m1 : 0 ≤ a * (p.ut + p.AA - (p.vt + p.CC) - 1) := mul_nonneg ha (by omega)
      have m2 : 0 ≤ b * (p.ut + p.BB - (p.vt + p.DD) - 1) := mul_nonneg hb (by omega)
      nlinarith
    exact lt_of_mul_lt_mul_left this hW.le

/-- One pass of the loop. -/
def Proxies.next (p : Proxies) (q : Int) : Proxies :=
  { ut := p.vt, vt := p.ut - q * p.vt, AA := p.CC, CC := p.AA - q * p.CC, BB := p.DD, DD := p.BB - q * p.DD }

theorem Proxies.next_fits {ut0 vt0 : Int} {p : Proxies} (h : p.Fits ut0 vt0) (q : Int) : (p.next q).Fits ut0 vt0 := by
  obtain ⟨e1, e2⟩ := h
  exact ⟨e2, by simp only [Proxies.next]; rw [e1, e2]; ring⟩

theorem Proxies.next_ordered {p : Proxies} {q : Int} (h1 : 0 < p.vt + p.CC) (h2 : 0 < p.vt + p.DD)
    (q1 : (p.ut + p.AA) / (p.vt + p.CC) = q) (q2 : (p.ut + p.BB) / (p.vt + p.DD) = q) : (p.next q).Ordered := by
  have a1 := Int.emod_nonneg (p.ut + p.AA) (by omega : p.vt + p.CC ≠ 0)
  have a2 := Int.emod_lt_of_pos (p.ut + p.AA) h1
  have b1 := Int.emod_nonneg (p.ut + p.BB) (by omega : p.vt + p.DD ≠ 0)
  have b2 := Int.emod_lt_of_pos (p.ut + p.BB) h2
  rw [Int.emod_def, q1] at a1 a2
  rw [Int.emod_def, q2] at b1 b2
  simp only [Proxies.Ordered, Proxies.next]
  refine ⟨⟨?_, ?_⟩, ?_, ?_⟩ <;> nlinarith

/-- The pass that follows from the loop's own test. -/
theorem proxyLoop_succ (fuel : Nat) (p : Proxies) :
    proxyLoop (fuel + 1) p = p ∨
    ∃ q, p.vt + p.CC ≠ 0 ∧ p.vt + p.DD ≠ 0 ∧ (p.ut + p.AA) / (p.vt + p.CC) = q ∧ (p.ut + p.BB) / (p.vt + p.DD) = q ∧
      proxyLoop (fuel + 1) p = proxyLoop fuel (p.next q) := by
  have e : proxyLoop (fuel + 1) p =
      if p.vt + p.CC = 0 ∨ p.vt + p.DD = 0 then p
      else if (p.ut + p.AA) / (p.vt + p.CC) ≠ (p.ut + p.BB) / (p.vt + p.DD) then p
      else proxyLoop fuel (p.next ((p.ut + p.AA) / (p.vt + p.CC))) := by rw [proxyLoop]; rfl
  rw [e]
  split
  · exact .inl rfl
  · rename_i h
    split
    · exact .inl rfl
    · rename_i hq
      exact .inr ⟨_, fun h0 => h (.inl h0), fun h0 => h (.inr h0), rfl, (not_not.1 hq).symm, rfl⟩

/-- What the loop answers after a first pass. -/
theorem proxyLoop_later {u v ut0 vt0 : Int} (hu0 : 0 ≤ ut0) (hv0 : 0 ≤ vt0) (ha : 0 ≤ u * (vt0 + 1) - v * ut0)
    (hb : 0 ≤ v * (ut0 + 1) - u * vt0) (hs : 0 < u + v) (fuel : Nat) (p : Proxies) (hf : p.Fits ut0 vt0) (ho : p.Ordered)
    (hl : Later u v (p.AA * u + p.BB * v) (p.CC * u + p.DD * v)) :
    Later u v ((proxyLoop fuel p).AA * u + (proxyLoop fuel p).BB * v) ((proxyLoop fuel p).CC * u + (proxyLoop fuel p).DD * v) := by
  induction fuel generalizing p with
  | zero => exact hl
  | succ fuel ih =>
    obtain h | ⟨q, n1, n2, q1, q2, h⟩ := proxyLoop_succ fuel p
    · rw [h]; exact hl
    · rw [h]
      obtain ⟨⟨o1, -⟩, o2, -⟩ := ho
      have ho' := Proxies.next_ordered (by omega) (by omega) q1 q2
      have hf' := Proxies.next_fits hf q
      obtain ⟨t1, t2⟩ := Proxies.true_pair hf' ho' hu0 hv0 ha hb hs
      refine ih _ hf' ho' ?_
      simp only [Proxies.next] at t1 t2 ⊢
      have e : (p.AA - q * p.CC) * u + (p.BB - q * p.DD) * v = p.AA * u + p.BB * v - q * (p.CC * u + p.DD * v) := by ring
      rw [e] at t1 t2 ⊢
      exact hl.next t1 t2

/-- A remainder step (R233). -/
theorem remainder_later {u v : Nat} (hv : 0 < v) (huv : v ≤ u) : Later u v (v : Nat) ((floorMod u v).toNat : Nat) := by
  have h0 := Nat.mod_lt u hv
  have e : ((u % v : Nat) : Int) = u - (u / v : Nat) * v := by
    have := Nat.div_add_mod u v
    have : (v : Int) * (u / v : Nat) + (u % v : Nat) = u := by exact_mod_cast this
    linarith
  rw [toNat_floorMod u hv]
  have hlt : ((u % v : Nat) : Int) < v := by exact_mod_cast h0
  rw [e] at hlt ⊢
  exact Later.first (by omega) (by omega) hlt

/-- A Lehmer step, its fallback included, is a run of at least one of Euclid's steps (R232, R233). -/
theorem lehmerStep_later {u v : Nat} (hv : 0 < v) (huv : v ≤ u) :
    Later u v ((lehmerStep u v).1 : Nat) ((lehmerStep u v).2 : Nat) := by
  unfold lehmerStep
  dsimp only
  have hcut : 0 < 2 ^ (64 * ((toLimbs u).length - 2)) := by positivity
  generalize 2 ^ (64 * ((toLimbs u).length - 2)) = cut at *
  split
  · exact remainder_later hv huv
  · rename_i hBB
    have du := Nat.div_add_mod u cut
    have dv := Nat.div_add_mod v cut
    have lu := Nat.mod_lt u hcut
    have lv := Nat.mod_lt v hcut
    have hle : v / cut ≤ u / cut := Nat.div_le_div_right huv
    generalize u / cut = ut0 at *
    generalize v / cut = vt0 at *
    generalize u % cut = ur at *
    generalize v % cut = vr at *
    have ha : (0 : Int) ≤ u * (vt0 + 1) - v * ut0 := by
      have : v * ut0 ≤ u * (vt0 + 1) := by
        have h2 : vr * ut0 ≤ cut * ut0 := Nat.mul_le_mul_right _ lv.le
        rw [← du, ← dv]
        nlinarith [Nat.zero_le (ur * (vt0 + 1))]
      have : ((v * ut0 : Nat) : Int) ≤ (u * (vt0 + 1) : Nat) := by exact_mod_cast this
      push_cast at this
      linarith
    have hb : (0 : Int) ≤ v * (ut0 + 1) - u * vt0 := by
      have : u * vt0 ≤ v * (ut0 + 1) := by
        have h2 : ur * vt0 ≤ cut * vt0 := Nat.mul_le_mul_right _ lu.le
        rw [← du, ← dv]
        nlinarith [Nat.zero_le (vr * (ut0 + 1))]
      have : ((u * vt0 : Nat) : Int) ≤ (v * (ut0 + 1) : Nat) := by exact_mod_cast this
      push_cast at this
      linarith
    have hs : (0 : Int) < u + v := by omega
    obtain ⟨p0, hp0⟩ : ∃ p0 : Proxies, p0 = { ut := (ut0 : Nat), vt := (vt0 : Nat), AA := 1, BB := 0, CC := 0, DD := 1 } := ⟨_, rfl⟩
    rw [← hp0] at hBB ⊢
    have hl : Later u v ((proxyLoop 260 p0).AA * u + (proxyLoop 260 p0).BB * v)
        ((proxyLoop 260 p0).CC * u + (proxyLoop 260 p0).DD * v) := by
      obtain h | ⟨q, n1, n2, q1, q2, h⟩ := proxyLoop_succ 259 p0
      · exact absurd (by rw [h, hp0]) hBB
      · have hf := Proxies.next_fits (p := p0) (ut0 := ut0) (vt0 := vt0) ⟨by simp [hp0], by simp [hp0]⟩ q
        have ho := Proxies.next_ordered (p := p0) (by simp only [hp0] at n1 ⊢; omega) (by simp only [hp0]; omega) q1 q2
        obtain ⟨t1, t2⟩ := Proxies.true_pair hf ho (by omega) (by omega) ha hb hs
        rw [h]
        refine proxyLoop_later (by omega) (by omega) ha hb hs 259 _ hf ho ?_
        have eT : (p0.next q).AA * (u : Int) + (p0.next q).BB * v = v := by simp [hp0, Proxies.next]
        have eU : (p0.next q).CC * (u : Int) + (p0.next q).DD * v = u - q * v := by simp [hp0, Proxies.next]; ring
        rw [eT, eU] at t2
        rw [eU] at t1
        rw [eT, eU]
        exact Later.first (by omega) t1 t2
    rw [sadd_eq, sadd_eq, smul_eq, smul_eq, smul_eq, smul_eq, Int.toNat_of_nonneg hl.nonneg,
      Int.toNat_of_nonneg (by have := hl.nonneg; have := hl.lt; omega)]
    exact hl

/-- An outer step of `gcd_mag` on a nonzero smaller operand. -/
theorem gcdLoop_succ (fuel : Nat) {u v : Nat} (hv : 0 < v) (huv : v ≤ u) :
    ∃ x y : Nat, Later u v x y ∧ gcdLoop (fuel + 1) u v = gcdLoop fuel x y := by
  rw [gcdLoop]
  split
  · exact ⟨_, _, lehmerStep_later hv huv, rfl⟩
  · rw [if_neg (by omega)]
    exact ⟨_, _, remainder_later hv huv, rfl⟩

theorem gcdLoop_zero (fuel u : Nat) : gcdLoop fuel u 0 = u := by
  cases fuel <;> simp [gcdLoop]

theorem gcdLoop_eq (fuel u v : Nat) (huv : v ≤ u) (h : u * v < 2 ^ fuel) : gcdLoop fuel u v = Nat.gcd u v := by
  induction fuel generalizing u v with
  | zero =>
    have : v = 0 := by nlinarith
    subst this
    simp [gcdLoop]
  | succ fuel ih =>
    rcases Nat.eq_zero_or_pos v with rfl | hv
    · rw [gcdLoop_zero]; simp
    · obtain ⟨x, y, hl, he⟩ := gcdLoop_succ fuel hv huv
      have h1 := hl.half
      have h2 := hl.lt
      have h3 := hl.gcd
      rw [he, ih x y (by omega) (by
        rw [pow_succ] at h
        have : 2 * (x * y) ≤ u * v := by exact_mod_cast h1
        omega)]
      exact h3

/-- `gcd_mag` is the greatest common divisor, within the fuel of R234. -/
theorem gcdMag_eq (p q : Nat) : gcdMag p q = Nat.gcd p q := by
  have key : ∀ u v : Nat, v ≤ u → gcdLoop (128 * (toLimbs v).length + 2) u v = Nat.gcd u v := by
    intro u v huv
    rcases Nat.eq_zero_or_pos v with rfl | hv
    · rw [gcdLoop_zero]; simp
    · obtain ⟨x, y, hl, he⟩ := gcdLoop_succ (128 * (toLimbs v).length + 1) hv huv
      have h1 : x ≤ v := by exact_mod_cast hl.le
      have h2 : y < x := by exact_mod_cast hl.lt
      have h3 := hl.gcd
      have hb : v < (2 ^ 64) ^ (toLimbs v).length := (length_toLimbs_le_iff v _).1 le_rfl
      rw [he, gcdLoop_eq _ x y h2.le]
      · exact h3
      · calc x * y ≤ v * v := Nat.mul_le_mul h1 (by omega)
          _ < (2 ^ 64) ^ (toLimbs v).length * (2 ^ 64) ^ (toLimbs v).length := Nat.mul_lt_mul'' hb hb
          _ = 2 ^ (128 * (toLimbs v).length) := by rw [← pow_mul, ← pow_add]; congr 1; ring
          _ ≤ _ := Nat.pow_le_pow_right (by norm_num) (by omega)
  unfold gcdMag
  rw [magCmp_eq (canonical_toLimbs p) (canonical_toLimbs q), val_toLimbs, val_toLimbs]
  split
  · rename_i u v hpq
    split at hpq
    · rename_i hlt
      have : p < q := by
        by_contra hc
        unfold Tri.ofInt at hlt
        rw [if_neg (by omega)] at hlt
        split at hlt <;> simp at hlt
      cases hpq
      rw [key q p this.le, Nat.gcd_comm]
    · rename_i hge
      have : q ≤ p := by
        by_contra hc
        exact hge (Tri.ofInt_of_neg (by omega))
      cases hpq
      exact key p q this

end Sys2Proof.Machine
end

