-- ==== Sys2Proof/Laws/State.lean ====
section
/-! SUPPORT. One law per field and update of the state, so that no later proof unfolds a record update. -/

namespace Sys2Proof.Machine

/-! ### Register writes (R24: no two registers share storage) -/

@[simp] theorem reg_setReg_same (s : State) (r : Reg) (b : BigInt) : (s.setReg r b).reg r = b := by
  simp [State.setReg, State.reg]

theorem reg_setReg_other (s : State) {r q : Reg} (b : BigInt) (h : q ≠ r) : (s.setReg r b).reg q = s.reg q := by
  have : (r : Nat) ≠ q := fun hq => h (Fin.ext hq.symm)
  simp [State.setReg, State.reg, this]

@[simp] theorem setReg_status (s : State) (r : Reg) (b : BigInt) : (s.setReg r b).status = s.status := rfl
@[simp] theorem setReg_cfg (s : State) (r : Reg) (b : BigInt) : (s.setReg r b).cfg = s.cfg := rfl
@[simp] theorem setReg_pending (s : State) (r : Reg) (b : BigInt) : (s.setReg r b).pending = s.pending := rfl
@[simp] theorem setReg_arg (s : State) (r : Reg) (b : BigInt) : (s.setReg r b).arg = s.arg := rfl
@[simp] theorem setReg_rsp (s : State) (r : Reg) (b : BigInt) : (s.setReg r b).rsp = s.rsp := rfl
@[simp] theorem setReg_freeCount (s : State) (r : Reg) (b : BigInt) : (s.setReg r b).freeCount = s.freeCount := rfl

@[simp] theorem reg_write_same (s : State) (r : Reg) (v : Int) : (s.write r v).reg r = BigInt.ofInt v := reg_setReg_same s r _

theorem reg_write_other (s : State) {r q : Reg} (v : Int) (h : q ≠ r) : (s.write r v).reg q = s.reg q := reg_setReg_other s _ h

@[simp] theorem write_status (s : State) (r : Reg) (v : Int) : (s.write r v).status = s.status := rfl
@[simp] theorem write_cfg (s : State) (r : Reg) (v : Int) : (s.write r v).cfg = s.cfg := rfl
@[simp] theorem write_pending (s : State) (r : Reg) (v : Int) : (s.write r v).pending = s.pending := rfl
@[simp] theorem write_arg (s : State) (r : Reg) (v : Int) : (s.write r v).arg = s.arg := rfl
@[simp] theorem write_rsp (s : State) (r : Reg) (v : Int) : (s.write r v).rsp = s.rsp := rfl
@[simp] theorem write_freeCount (s : State) (r : Reg) (v : Int) : (s.write r v).freeCount = s.freeCount := rfl

/-! ### A raise (R246) -/

@[simp] theorem raise_reg (e : Err) (s : State) (r : Reg) : (raise e s).reg r = s.reg r := rfl
@[simp] theorem raise_status (e : Err) (s : State) :
    (raise e s).status = ⟨e, true, if s.status.fault then s.status.firstErr else e, s.status.cmp⟩ := rfl
@[simp] theorem raise_cfg (e : Err) (s : State) : (raise e s).cfg = s.cfg := rfl
@[simp] theorem raise_pending (e : Err) (s : State) : (raise e s).pending = s.pending := rfl
@[simp] theorem raise_arg (e : Err) (s : State) : (raise e s).arg = s.arg := rfl
@[simp] theorem raise_rsp (e : Err) (s : State) : (raise e s).rsp = some ⟨e, 0⟩ := rfl
@[simp] theorem raise_freeCount (e : Err) (s : State) : (raise e s).freeCount = s.freeCount := rfl

/-! ### A success (R246) -/

@[simp] theorem succeed_reg (v : Scalar) (s : State) (r : Reg) : (succeed v s).reg r = s.reg r := rfl
@[simp] theorem succeed_status (v : Scalar) (s : State) : (succeed v s).status = { s.status with lastErr := .none } := rfl
@[simp] theorem succeed_cfg (v : Scalar) (s : State) : (succeed v s).cfg = s.cfg := rfl
@[simp] theorem succeed_pending (v : Scalar) (s : State) : (succeed v s).pending = s.pending := rfl
@[simp] theorem succeed_arg (v : Scalar) (s : State) : (succeed v s).arg = s.arg := rfl
@[simp] theorem succeed_rsp (v : Scalar) (s : State) : (succeed v s).rsp = some ⟨.none, v⟩ := rfl
@[simp] theorem succeed_freeCount (v : Scalar) (s : State) : (succeed v s).freeCount = s.freeCount := rfl

/-! ### The comparison flag (R28, R137) -/

@[simp] theorem setCmp_reg (c : Tri) (s : State) (r : Reg) : (s.setCmp c).reg r = s.reg r := rfl
@[simp] theorem setCmp_status (c : Tri) (s : State) : (s.setCmp c).status = { s.status with cmp := c } := rfl
@[simp] theorem setCmp_cfg (c : Tri) (s : State) : (s.setCmp c).cfg = s.cfg := rfl
@[simp] theorem setCmp_pending (c : Tri) (s : State) : (s.setCmp c).pending = s.pending := rfl
@[simp] theorem setCmp_arg (c : Tri) (s : State) : (s.setCmp c).arg = s.arg := rfl
@[simp] theorem setCmp_rsp (c : Tri) (s : State) : (s.setCmp c).rsp = s.rsp := rfl
@[simp] theorem setCmp_freeCount (c : Tri) (s : State) : (s.setCmp c).freeCount = s.freeCount := rfl

/-! ### The port (R70, R270, R271) -/

@[simp] theorem accept_reg (s : State) (a : Scalar) (es : List HostEvent) (r : Reg) : (s.accept a es).reg r = s.reg r := rfl
@[simp] theorem accept_status (s : State) (a : Scalar) (es : List HostEvent) : (s.accept a es).status = s.status := rfl
@[simp] theorem accept_cfg (s : State) (a : Scalar) (es : List HostEvent) : (s.accept a es).cfg = s.cfg := rfl
@[simp] theorem accept_pending (s : State) (a : Scalar) (es : List HostEvent) : (s.accept a es).pending = es := rfl
@[simp] theorem accept_arg (s : State) (a : Scalar) (es : List HostEvent) : (s.accept a es).arg = a := rfl
@[simp] theorem accept_freeCount (s : State) (a : Scalar) (es : List HostEvent) : (s.accept a es).freeCount = s.freeCount := rfl

theorem reg_resetWith (n : Nat) (r : Reg) : (State.resetWith n).reg r = BigInt.zero := by
  simp [State.resetWith, State.reg]

@[simp] theorem reg_resetTo (s : State) (es : List HostEvent) (r : Reg) : (s.resetTo es).reg r = BigInt.zero :=
  reg_resetWith s.cfg.maxLimbs r

@[simp] theorem resetTo_status (s : State) (es : List HostEvent) : (s.resetTo es).status = Status.reset := rfl
@[simp] theorem resetTo_cfg (s : State) (es : List HostEvent) : (s.resetTo es).cfg = s.cfg := rfl
@[simp] theorem resetTo_pending (s : State) (es : List HostEvent) : (s.resetTo es).pending = es := rfl
@[simp] theorem resetTo_rsp (s : State) (es : List HostEvent) : (s.resetTo es).rsp = none := rfl
@[simp] theorem resetTo_freeCount (s : State) (es : List HostEvent) : (s.resetTo es).freeCount = s.freeCount := rfl

@[simp] theorem idle_reg (s : State) (r : Reg) : s.idle.reg r = s.reg r := rfl
@[simp] theorem idle_status (s : State) : s.idle.status = s.status := rfl
@[simp] theorem idle_cfg (s : State) : s.idle.cfg = s.cfg := rfl
@[simp] theorem idle_pending (s : State) : s.idle.pending = s.pending := rfl
@[simp] theorem idle_rsp (s : State) : s.idle.rsp = none := rfl

/-! ### Operands -/

/-- A register as an integer is the integer view of its content (R23). -/
theorem value_eq (s : State) (r : Reg) : s.value r = (s.reg r).toInt := rfl

theorem limbsOf_eq (s : State) (r : Reg) : s.limbsOf r = (s.reg r).limbs := rfl

theorem len_eq (s : State) (r : Reg) : s.len r = (s.reg r).limbs.length := rfl

end Sys2Proof.Machine
end

