-- ==== Sys2Proof/Laws/Ops.lean ====
section
/-! SUPPORT. What each shared operation can do, once (00_scope.md R12; 40_data_movement.md R111; 60_exceptions.md R243, R246, R249), and
that each of them keeps the invariant (10_state.md R22, R26, R27). -/

namespace Sys2Proof.Machine

/-! ### The capacity check (R243) -/

theorem fits_iff (s : State) (v : Int) : fits s v = true ↔ Fits s v := by
  simp [fits, Fits, length_toLimbs_le_iff]

theorem fits_eq_false_iff (s : State) (v : Int) : fits s v = false ↔ ¬ Fits s v := by
  rw [← fits_iff, Bool.not_eq_true]

/-- What a register of a state within its invariant holds fits a register (R12). -/
theorem fits_value {s : State} (h : s.Inv) (r : Reg) : Fits s (s.value r) := BigInt.toInt_bound (h.2.1 r)

theorem fits_of_natAbs_le {s : State} {v w : Int} (h : Fits s w) (hv : v.natAbs ≤ w.natAbs) : Fits s v := lt_of_le_of_lt hv h

theorem fits_zero (s : State) : Fits s 0 := by
  simp only [Fits, Int.natAbs_zero]
  positivity

/-! ### Ends of a command -/

theorem throwErr_raised (e : Err) (s : State) : ∃ t, throwErr e s = .next t ∧ Raised s t e :=
  ⟨_, rfl, fun _ => rfl, rfl, rfl, rfl, rfl, rfl, rfl⟩

theorem answer_answered (v : Scalar) (s : State) : ∃ t, answer v s = .next t ∧ Answered s t v :=
  ⟨_, rfl, fun _ => rfl, rfl, rfl, rfl, rfl, rfl, rfl⟩

/-- A write that passes the check. -/
theorem commit_wrote {s : State} {v : Int} (rd : Reg) (h : Fits s v) :
    ∃ t, commit rd v s = .next t ∧ Wrote s t rd v ∧ t.reg rd = BigInt.ofInt v := by
  refine ⟨succeed 0 (s.write rd v), by rw [commit, if_pos ((fits_iff s v).2 h)]; rfl, ⟨?_, ?_, ?_, rfl, rfl, rfl, rfl, rfl, rfl⟩, ?_⟩
  · rw [value_eq, succeed_reg, reg_write_same, BigInt.toInt_ofInt]
  · rw [succeed_reg, reg_write_same]; exact BigInt.wf_ofInt h
  · intro r hr; rw [succeed_reg, reg_write_other _ _ hr]
  · rw [succeed_reg, reg_write_same]

/-- A write that does not. -/
theorem commit_raised {s : State} {v : Int} (rd : Reg) (h : ¬ Fits s v) :
    ∃ t, commit rd v s = .next t ∧ Raised s t .allocationFailed := by
  rw [commit, if_neg (by rw [fits_iff]; exact h)]
  exact throwErr_raised _ s

theorem commitTwo_wrote {s : State} {v v2 : Int} {rd rd2 : Reg} (hne : rd ≠ rd2) (h : Fits s v) (h2 : Fits s v2) :
    ∃ t, commitTwo rd v rd2 v2 s = .next t ∧ WroteTwo s t rd v rd2 v2 := by
  refine ⟨succeed 0 ((s.write rd v).write rd2 v2), by rw [commitTwo, (fits_iff s v).2 h, (fits_iff s v2).2 h2]; rfl, ?_, ?_, ?_, ?_, ?_, rfl, rfl, rfl, rfl, rfl, rfl⟩
  · rw [value_eq, succeed_reg, reg_write_other _ _ hne, reg_write_same, BigInt.toInt_ofInt]
  · rw [succeed_reg, reg_write_other _ _ hne, reg_write_same]; exact BigInt.wf_ofInt h
  · rw [value_eq, succeed_reg, reg_write_same, BigInt.toInt_ofInt]
  · rw [succeed_reg, reg_write_same]; exact BigInt.wf_ofInt h2
  · intro r h1 h2; rw [succeed_reg, reg_write_other _ _ h2, reg_write_other _ _ h1]

/-- Everything `commit` can do. -/
theorem commit_cases (rd : Reg) (v : Int) (s : State) :
    (Fits s v ∧ commit rd v s = .next (succeed 0 (s.write rd v))) ∨
    (¬ Fits s v ∧ commit rd v s = .next (raise .allocationFailed s)) := by
  unfold commit
  cases h : fits s v with
  | true => exact .inl ⟨(fits_iff s v).1 h, rfl⟩
  | false => exact .inr ⟨(fits_eq_false_iff s v).1 h, rfl⟩

/-- Everything `commitTwo` can do. -/
theorem commitTwo_cases (rd : Reg) (v : Int) (rd2 : Reg) (v2 : Int) (s : State) :
    (Fits s v ∧ Fits s v2 ∧ commitTwo rd v rd2 v2 s = .next (succeed 0 ((s.write rd v).write rd2 v2))) ∨
    (¬ (Fits s v ∧ Fits s v2) ∧ commitTwo rd v rd2 v2 s = .next (raise .allocationFailed s)) := by
  unfold commitTwo
  cases h : fits s v with
  | true =>
    cases h2 : fits s v2 with
    | true => exact .inl ⟨(fits_iff s v).1 h, (fits_iff s v2).1 h2, rfl⟩
    | false => exact .inr ⟨fun hc => (fits_eq_false_iff s v2).1 h2 hc.2, rfl⟩
  | false => exact .inr ⟨fun hc => (fits_eq_false_iff s v).1 h hc.1, rfl⟩

/-! ### The invariant -/

theorem inv_setReg {s : State} (h : s.Inv) (r : Reg) {b : BigInt} (hb : b.wf s.cfg.maxLimbs = true) : (s.setReg r b).Inv := by
  refine ⟨h.1, fun q => ?_, h.2.2⟩
  by_cases hq : q = r
  · subst hq; rw [reg_setReg_same]; exact hb
  · rw [reg_setReg_other _ _ hq]; exact h.2.1 q

theorem inv_write {s : State} (h : s.Inv) (r : Reg) {v : Int} (hv : Fits s v) : (s.write r v).Inv :=
  inv_setReg h r (BigInt.wf_ofInt hv)

theorem inv_raise {s : State} (h : s.Inv) {e : Err} (he : e.legal = true) (hn : e ≠ .none) : (raise e s).Inv := by
  refine ⟨h.1, h.2.1, ?_⟩
  have hs := h.2.2
  rw [raise_status]
  cases hf : s.status.fault <;> simp [Status.wf, hf] at hs ⊢ <;> simp_all

theorem inv_succeed {s : State} (h : s.Inv) (v : Scalar) : (succeed v s).Inv := by
  refine ⟨h.1, h.2.1, ?_⟩
  have hs := h.2.2
  rw [succeed_status]
  simp [Status.wf] at hs ⊢
  exact ⟨⟨rfl, hs.1.2⟩, hs.2⟩

theorem inv_commit {s t : State} {rd : Reg} {v : Int} (h : s.Inv) (ht : commit rd v s = .next t) : t.Inv := by
  rcases commit_cases rd v s with ⟨hf, he⟩ | ⟨-, he⟩ <;> rw [he] at ht <;> cases ht
  · exact inv_succeed (inv_write h rd hf) 0
  · exact inv_raise h rfl (by decide)

theorem inv_commitTwo {s t : State} {rd rd2 : Reg} {v v2 : Int} (h : s.Inv) (ht : commitTwo rd v rd2 v2 s = .next t) : t.Inv := by
  rcases commitTwo_cases rd v rd2 v2 s with ⟨hf, hf2, he⟩ | ⟨-, he⟩ <;> rw [he] at ht <;> cases ht
  · exact inv_succeed (inv_write (inv_write h rd hf) rd2 hf2) 0
  · exact inv_raise h rfl (by decide)

/-! ### The free values of an inexact `DIV3` (U1) -/

theorem wf_trim {cap : Nat} {sg : Tri} {L : List Limb} (hs : sg ≠ .zero) (hl : L.length ≤ cap) : (trim sg L).wf cap = true := by
  rw [BigInt.wf_iff]
  refine ⟨?_, canonical_trimLimbs L, (length_trimLimbs_le L).trans hl⟩
  simp only [trim]
  split <;> simp_all

theorem wf_boundedContent (cap : Nat) (c : Bool × List Limb) : (boundedContent cap c).wf cap = true := by
  refine wf_trim ?_ (by simp)
  cases c.1 <;> simp

theorem legal_ofIndex (k : Fin 5) : (Err.ofIndex k).legal = true := by
  match k with
  | 0 | 1 | 2 | 3 | 4 => rfl

theorem faultRecord_none_iff (k : Fin 5) : ((faultRecord k).2 = .none) ↔ ((faultRecord k).1 = false) := by
  match k with
  | 0 | 1 | 2 | 3 | 4 => simp [faultRecord, Err.ofIndex]

@[simp] theorem undefinedResult_cfg (rd : Reg) (s : State) : (undefinedResult rd s).cfg = s.cfg := rfl
@[simp] theorem undefinedResult_arg (rd : Reg) (s : State) : (undefinedResult rd s).arg = s.arg := rfl
@[simp] theorem undefinedResult_pending (rd : Reg) (s : State) : (undefinedResult rd s).pending = s.pending := rfl
@[simp] theorem undefinedResult_cmp (rd : Reg) (s : State) : (undefinedResult rd s).status.cmp = s.status.cmp := rfl
@[simp] theorem undefinedResult_freeCount (rd : Reg) (s : State) : (undefinedResult rd s).freeCount = s.freeCount + 1 := rfl

theorem undefinedResult_reg_same (rd : Reg) (s : State) :
    (undefinedResult rd s).reg rd = boundedContent s.cfg.maxLimbs (Config.freeContent s.freeCount) :=
  reg_setReg_same s rd _

theorem undefinedResult_reg_other (rd : Reg) (s : State) {r : Reg} (h : r ≠ rd) : (undefinedResult rd s).reg r = s.reg r :=
  reg_setReg_other s _ h

theorem inv_undefinedResult {s : State} (h : s.Inv) (rd : Reg) : (undefinedResult rd s).Inv := by
  refine ⟨h.1, fun q => ?_, ?_⟩
  · by_cases hq : q = rd
    · subst hq; rw [undefinedResult_reg_same]; exact wf_boundedContent _ _
    · rw [undefinedResult_reg_other _ _ hq]; exact h.2.1 q
  · have hr := faultRecord_none_iff (Config.freeFirstErr s.freeCount)
    have hl : (faultRecord (Config.freeFirstErr s.freeCount)).2.legal = true := legal_ofIndex _
    simp only [Machine.undefinedResult, Status.wf, legal_ofIndex, hl, Bool.true_and]
    cases hf : (faultRecord (Config.freeFirstErr s.freeCount)).1 <;> simp_all

/-! ### The reset state and the idle step -/

theorem inv_resetWith {n : Nat} (h1 : 1 ≤ n) (h2 : n ≤ 2 ^ 32) : (State.resetWith n).Inv := by
  refine ⟨?_, fun r => ?_, rfl⟩
  · show (decide (1 ≤ n) && decide (n ≤ 2 ^ 32)) = true
    rw [decide_eq_true h1, decide_eq_true h2]; rfl
  · rw [reg_resetWith]; simp [BigInt.wf, BigInt.zero]

theorem inv_limits {s : State} (h : s.Inv) : 1 ≤ s.cfg.maxLimbs ∧ s.cfg.maxLimbs ≤ 2 ^ 32 := by
  have := h.1
  simpa [Config.wf] using this

end Sys2Proof.Machine
end

