-- ==== Sys2Proof/Laws/Commands.lean ====
section
/-! SUPPORT. Each command with its datapath replaced by the result it computes, and everything the end of a command can be, once. -/

namespace Sys2Proof.Machine

/-! ### The two views of an operand, within the invariant (10_state.md R23) -/

theorem natAbs_value {s : State} (h : s.Inv) (r : Reg) : (s.value r).natAbs = val (s.limbsOf r) := BigInt.natAbs_toInt (h.2.1 r)

theorem limbsOf_value {s : State} (h : s.Inv) (r : Reg) : s.limbsOf r = toLimbs (s.value r).natAbs := BigInt.limbs_eq (h.2.1 r)

theorem canonical_limbsOf {s : State} (h : s.Inv) (r : Reg) : Canonical (s.limbsOf r) := ((BigInt.wf_iff _ _).1 (h.2.1 r)).2.1

theorem len_le {s : State} (h : s.Inv) (r : Reg) : s.len r ≤ s.cfg.maxLimbs := ((BigInt.wf_iff _ _).1 (h.2.1 r)).2.2

/-! ### Commands by their results -/

theorem execAdd_eq (rd rs1 rs2 : Reg) (s : State) : execAdd rd rs1 rs2 s = commit rd (s.value rs1 + s.value rs2) s := by
  rw [execAdd, sadd_eq]

theorem execSub_eq (rd rs1 rs2 : Reg) (s : State) : execSub rd rs1 rs2 s = commit rd (s.value rs1 - s.value rs2) s := by
  rw [execSub, sadd_eq]; rfl

theorem execShr_eq {s : State} (h : s.Inv) (rd rs1 : Reg) :
    execShr rd rs1 s = commit rd ((s.value rs1).sign * ((s.value rs1).natAbs / 2 ^ s.arg.toNat : Nat)) s := by
  rw [execShr, val_shrMag, natAbs_value h]; rfl

theorem execDiv3_eq {s : State} (h : s.Inv) (rd rs1 : Reg) {q : Int} (hq : s.value rs1 = 3 * q) :
    execDiv3 rd rs1 s = commit rd q s := by
  unfold execDiv3
  rw [if_neg (by omega), val_div3Mag (by rw [← natAbs_value h]; omega), ← natAbs_value h,
    sign_mul_div_of_dvd (v := s.value rs1) (k := 3) (by norm_num) ⟨q, hq⟩, hq]
  congr 1
  norm_num

/-- The product of the signs and the magnitudes is the product (43_multiplication.md R162). -/
theorem sign_mul_val_mul {s : State} (h : s.Inv) (rs1 rs2 : Reg) :
    (s.value rs1).sign * (s.value rs2).sign * (val (s.limbsOf rs1) * val (s.limbsOf rs2) : Nat) = s.value rs1 * s.value rs2 := by
  rw [← natAbs_value h, ← natAbs_value h]
  push_cast
  calc _ = ((s.value rs1).sign * |s.value rs1|) * ((s.value rs2).sign * |s.value rs2|) := by ring
    _ = _ := by rw [Int.sign_mul_abs, Int.sign_mul_abs]

theorem execMuls_eq {s : State} (h : s.Inv) (rd rs1 rs2 : Reg) : execMuls rd rs1 rs2 s = commit rd (s.value rs1 * s.value rs2) s := by
  rw [execMuls, val_mulSchool, sign_mul_val_mul h]

theorem execMulk_eq {s : State} (h : s.Inv) (rd rs1 rs2 : Reg) : execMulk rd rs1 rs2 s = commit rd (s.value rs1 * s.value rs2) s := by
  rw [execMulk, val_kar, sign_mul_val_mul h]

theorem execMult3_eq {s : State} (h : s.Inv) (rd rs1 rs2 : Reg) : execMult3 rd rs1 rs2 s = commit rd (s.value rs1 * s.value rs2) s := by
  have := sign_mul_val_mul h rs1 rs2
  rw [← natAbs_value h, ← natAbs_value h] at this
  simp only [execMult3, toomMag_eq]
  split
  · rename_i h0
    congr 1
    rcases h0 with h0 | h0 <;> rw [h0] <;> simp
  · rw [← this]; push_cast; rfl

theorem execDiv_eq {s : State} (rd rd2 rs1 : Reg) {rs2 : Reg} (h : s.value rs2 ≠ 0) :
    execDiv rd rd2 rs1 rs2 s = commitTwo rd ((s.value rs1).fdiv (s.value rs2)) rd2 ((s.value rs1).fmod (s.value rs2)) s := by
  simp only [execDiv, if_neg h, divSigned_eq _ h]

theorem execMod_eq {s : State} (rd rs1 : Reg) {rs2 : Reg} (h : s.value rs2 ≠ 0) :
    execMod rd rs1 rs2 s = commit rd ((s.value rs1).fmod (s.value rs2)) s := by
  simp only [execMod, if_neg h, divSigned_eq _ h]

theorem execModexp_eq {s : State} (rd rd2 rs1 rs2 rs3 : Reg) (hN : 0 < s.value rs3) (hodd : s.value rs3 % 2 = 1)
    (he : 0 ≤ s.value rs2) :
    execModexp rd rd2 rs1 rs2 rs3 s =
      commitTwo rd (s.value rs1 ^ (s.value rs2).toNat % s.value rs3)
        rd2 (2 ^ (128 * (toLimbs (s.value rs3).natAbs).length) % s.value rs3) s := by
  unfold execModexp
  dsimp only
  rw [if_neg (by omega), if_neg (by omega)]
  generalize s.value rs3 = N at *
  lift N to Nat using hN.le
  rw [Int.toNat_natCast, modexpCore_eq _ _ (by omega), Int.natAbs_natCast]
  dsimp only
  rw [Int.toNat_of_nonneg (Int.emod_nonneg _ (by omega))]
  push_cast
  rfl

theorem execGcd_eq (rd rs1 rs2 : Reg) (s : State) :
    execGcd rd rs1 rs2 s = commit rd (Nat.gcd (s.value rs1).natAbs (s.value rs2).natAbs : Nat) s := by
  rw [execGcd, gcdMag_eq]

/-! ### Results that always fit (60_exceptions.md R243) -/

theorem natAbs_fmod_lt (a : Int) {b : Int} (hb : b ≠ 0) : (a.fmod b).natAbs < b.natAbs := by
  rcases lt_or_gt_of_ne hb with h | h
  · have h1 := Int.fmod_lt_of_pos (-a) (b := -b) (by omega)
    have h2 := Int.fmod_nonneg_of_pos (-a) (b := -b) (by omega)
    rw [Int.neg_fmod_neg] at h1 h2
    omega
  · have h1 := Int.fmod_lt_of_pos a h
    have h2 := Int.fmod_nonneg_of_pos a h
    omega

theorem fits_fdiv {s : State} (h : s.Inv) (a : Reg) {b : Int} (hb : b ≠ 0) : Fits s ((s.value a).fdiv b) :=
  fits_of_natAbs_le (fits_value h a) (fdiv_mul_le_natAbs _ hb)

theorem fits_fmod {s : State} (h : s.Inv) (a : Int) {b : Reg} (hb : s.value b ≠ 0) : Fits s (a.fmod (s.value b)) :=
  fits_of_natAbs_le (fits_value h b) (natAbs_fmod_lt _ hb).le

theorem fits_emod {s : State} (h : s.Inv) (a : Int) {b : Reg} (hb : 0 < s.value b) : Fits s (a % s.value b) := by
  have h1 := Int.emod_nonneg a (by omega : s.value b ≠ 0)
  have h2 := Int.emod_lt_of_pos a hb
  exact fits_of_natAbs_le (fits_value h b) (by omega)

theorem fits_gcd {s : State} (h : s.Inv) (a b : Reg) : Fits s (Nat.gcd (s.value a).natAbs (s.value b).natAbs : Nat) := by
  by_cases h0 : s.value a = 0
  · exact fits_of_natAbs_le (fits_value h b) (by rw [h0, Int.natAbs_zero, Nat.gcd_zero_left, Int.natAbs_natCast])
  · refine fits_of_natAbs_le (fits_value h a) ?_
    rw [Int.natAbs_natCast]
    exact Nat.gcd_le_left _ (by omega)

theorem fits_scalar {s : State} (h : s.Inv) (d : Limb) : Fits s d.toNat := by
  refine lt_of_lt_of_le (by simpa using d.isLt : _ < 2 ^ 64) ?_
  calc 2 ^ 64 = (2 ^ 64) ^ 1 := by ring
    _ ≤ _ := Nat.pow_le_pow_right (by norm_num) (inv_limits h).1

/-! ### The end of a command -/

/-- Everything the end of command `i` can be: a failure (R246), an answer, one or two registers written, the flag set, the two commands on
`STATUS`, and the undefined case (U1). -/
inductive Ends (i : Instr) (s : State) : State → Prop
  | failed (e : Err) (he : e = .allocationFailed ∨ e = .badInputData ∨ e = .divisionByZero)
      (hi : e ∈ mayRaise i ∨ e = .allocationFailed ∧ i.destinations ≠ []) : Ends i s (raise e s)
  | answered (v : Scalar) (hd : i.destinations = []) (hv : i.setsRes = true ∨ v = 0) (hc : i ≠ .clrf) (hs : i ≠ .rdst) :
      Ends i s (succeed v s)
  | wrote (rd : Reg) (v : Int) (hd : i.destinations = [rd]) (hv : Fits s v) : Ends i s (succeed 0 (s.write rd v))
  | wroteTwo (rd rd2 : Reg) (v v2 : Int) (hd : i.destinations = [rd, rd2]) (hv : Fits s v) (hv2 : Fits s v2) :
      Ends i s (succeed 0 ((s.write rd v).write rd2 v2))
  | compared (rs1 rs2 : Reg) (hi : i = .cmp rs1 rs2) (c : Tri) : Ends i s (succeed c.scalar (s.setCmp c))
  | readStatus (hi : i = .rdst) : Ends i s { s with rsp := some ⟨.none, s.status.word⟩ }
  | cleared (hi : i = .clrf) : Ends i s (succeed 0 { s with status := { s.status with fault := false, firstErr := .none } })
  | undefined (rd rs1 : Reg) (hi : i = .div3 rd rs1) (hu : ¬ (3 : Int) ∣ s.value rs1) : Ends i s (undefinedResult rd s)

theorem Ends.of_commit {i : Instr} {s : State} {rd : Reg} (v : Int) (h : i.destinations = [rd]) :
    ∃ t, commit rd v s = .next t ∧ Ends i s t := by
  rcases commit_cases rd v s with ⟨hf, h'⟩ | ⟨-, h'⟩
  · exact ⟨_, h', .wrote rd v h hf⟩
  · exact ⟨_, h', .failed _ (.inl rfl) (.inr ⟨rfl, by simp [h]⟩)⟩

theorem Ends.of_commitTwo {i : Instr} {s : State} {rd rd2 : Reg} (v v2 : Int) (h : i.destinations = [rd, rd2]) :
    ∃ t, commitTwo rd v rd2 v2 s = .next t ∧ Ends i s t := by
  rcases commitTwo_cases rd v rd2 v2 s with ⟨hf, hf2, h'⟩ | ⟨-, h'⟩
  · exact ⟨_, h', .wroteTwo rd rd2 v v2 h hf hf2⟩
  · exact ⟨_, h', .failed _ (.inl rfl) (.inr ⟨rfl, by simp [h]⟩)⟩

theorem Ends.of_throwErr {i : Instr} {s : State} {e : Err} (h : e ∈ mayRaise i)
    (he : e = .allocationFailed ∨ e = .badInputData ∨ e = .divisionByZero) : ∃ t, throwErr e s = .next t ∧ Ends i s t :=
  ⟨_, rfl, .failed e he (.inl h)⟩

theorem Ends.of_answer {i : Instr} {s : State} {v : Scalar} (hd : i.destinations = []) (hv : i.setsRes = true ∨ v = 0)
    (hc : i ≠ .clrf) (hs : i ≠ .rdst) : ∃ t, answer v s = .next t ∧ Ends i s t :=
  ⟨_, rfl, .answered v hd hv hc hs⟩

/-- A command always ends, in one of these ways. -/
theorem exec_ends (i : Instr) (s : State) : ∃ t, exec i s = .next t ∧ Ends i s t := by
  unfold exec
  cases i with
  | nop => exact Ends.of_answer rfl (.inr rfl) (by simp) (by simp)
  | clr rd => exact Ends.of_commit _ rfl
  | copy rd rs1 => exact Ends.of_commit _ rfl
  | ldi rd => exact Ends.of_commit _ rfl
  | pushl rd => exact Ends.of_commit _ rfl
  | neg rd rs1 => exact Ends.of_commit _ rfl
  | rdl rs1 =>
    dsimp only
    unfold execRdl
    split
    · exact Ends.of_throwErr (by simp [mayRaise]) (by simp)
    · exact Ends.of_answer rfl (.inl rfl) (by simp) (by simp)
  | rdlen rs1 => exact Ends.of_answer rfl (.inl rfl) (by simp) (by simp)
  | rdsgn rs1 => exact Ends.of_answer rfl (.inl rfl) (by simp) (by simp)
  | rdst => exact ⟨_, rfl, .readStatus rfl⟩
  | clrf => exact ⟨_, rfl, .cleared rfl⟩
  | bitlen rs1 => exact Ends.of_answer rfl (.inl rfl) (by simp) (by simp)
  | add rd rs1 rs2 => dsimp only; rw [execAdd_eq]; exact Ends.of_commit _ rfl
  | sub rd rs1 rs2 => dsimp only; rw [execSub_eq]; exact Ends.of_commit _ rfl
  | cmp rs1 rs2 => exact ⟨_, rfl, .compared rs1 rs2 rfl _⟩
  | shr rd rs1 => dsimp only; unfold execShr; exact Ends.of_commit _ rfl
  | div3 rd rs1 =>
    dsimp only
    unfold execDiv3
    split
    · exact ⟨_, rfl, .undefined rd rs1 rfl (by omega)⟩
    · exact Ends.of_commit _ rfl
  | pow2 rd =>
    dsimp only
    unfold execPow2
    split
    · exact Ends.of_throwErr (by simp [mayRaise]) (by simp)
    · exact Ends.of_commit _ rfl
  | muls rd rs1 rs2 => dsimp only; unfold execMuls; exact Ends.of_commit _ rfl
  | mulk rd rs1 rs2 => dsimp only; unfold execMulk; exact Ends.of_commit _ rfl
  | mult3 rd rs1 rs2 =>
    dsimp only
    unfold execMult3
    dsimp only
    split <;> exact Ends.of_commit _ rfl
  | div rd rd2 rs1 rs2 =>
    dsimp only
    unfold execDiv
    dsimp only
    split
    · exact Ends.of_throwErr (by simp [mayRaise]) (by simp)
    · exact Ends.of_commitTwo _ _ rfl
  | mod rd rs1 rs2 =>
    dsimp only
    unfold execMod
    dsimp only
    split
    · exact Ends.of_throwErr (by simp [mayRaise]) (by simp)
    · exact Ends.of_commit _ rfl
  | montmul rd rs1 rs2 rs3 =>
    dsimp only
    unfold execMontmul
    dsimp only
    split
    · exact Ends.of_throwErr (by simp [mayRaise]) (by simp)
    · split
      · exact Ends.of_throwErr (by simp [mayRaise]) (by simp)
      · split
        · exact Ends.of_throwErr (by simp [mayRaise]) (by simp)
        · exact Ends.of_commit _ rfl
  | modexp rd rd2 rs1 rs2 rs3 =>
    dsimp only
    unfold execModexp
    dsimp only
    split
    · exact Ends.of_throwErr (by simp [mayRaise]) (by simp)
    · split
      · exact Ends.of_throwErr (by simp [mayRaise]) (by simp)
      · exact Ends.of_commitTwo _ _ rfl
  | gcd rd rs1 rs2 => dsimp only; unfold execGcd; exact Ends.of_commit _ rfl

/-- What every end leaves alone: the parameter, the scalar, the host's list; and there is a response. -/
theorem Ends.rest {i : Instr} {s t : State} (h : Ends i s t) :
    t.cfg = s.cfg ∧ t.arg = s.arg ∧ t.pending = s.pending ∧ ∃ ρ, t.rsp = some ρ := by
  cases h <;> exact ⟨rfl, rfl, rfl, _, rfl⟩

/-- Every end keeps the invariant. -/
theorem Ends.inv {i : Instr} {s t : State} (h : Ends i s t) (hs : s.Inv) : t.Inv := by
  have hst := hs.2.2
  simp only [Status.wf, Bool.and_eq_true] at hst
  cases h with
  | failed e he hi =>
    exact inv_raise hs (by rcases he with rfl | rfl | rfl <;> rfl) (by rcases he with rfl | rfl | rfl <;> decide)
  | answered v => exact inv_succeed hs v
  | wrote rd v hd hv => exact inv_succeed (inv_write hs rd hv) 0
  | wroteTwo rd rd2 v v2 hd hv hv2 => exact inv_succeed (inv_write (inv_write hs rd hv) rd2 hv2) 0
  | compared rs1 rs2 hi c =>
    exact inv_succeed (s := s.setCmp c) ⟨hs.1, hs.2.1, hs.2.2⟩ _
  | readStatus => exact ⟨hs.1, hs.2.1, hs.2.2⟩
  | cleared =>
    refine inv_succeed (s := { s with status := { s.status with fault := false, firstErr := .none } }) ⟨hs.1, hs.2.1, ?_⟩ _
    show (s.status.lastErr.legal && true && true) = true
    rw [hst.1.1]
    rfl
  | undefined rd rs1 => exact inv_undefinedResult hs rd

/-- Everything the port can do with a command word (R111 step 1, R247). -/
theorem runWord_cases (w : CmdWord) (s : State) :
    (∃ i t, decode w = .ok i ∧ exec i s = .next t ∧ runWord w s = .next t ∧ Ends i s t) ∨
    ((∀ i, decode w ≠ .ok i) ∧ runWord w s = .next (raise .illegalCommand s)) := by
  cases h : decode w with
  | ok i =>
    obtain ⟨t, h1, h2⟩ := exec_ends i s
    exact .inl ⟨i, t, rfl, h1, by simp only [runWord, h]; exact h1, h2⟩
  | error e => exact .inr ⟨by simp, by simp only [runWord, h]; rfl⟩

end Sys2Proof.Machine
end

