-- ==== Sys2Proof/Laws/Decode.lean ====
section
/-! SUPPORT. Laws of the word layout and of the tables of the encoding (30_encoding.md R71, R72, R74). -/

namespace Sys2Proof

/-! ### Fields and words (R71) -/

@[simp] theorem Fields.ofWord_toWord (f : Fields) : Fields.ofWord f.toWord = f := by
  cases f
  simp only [Fields.ofWord, Fields.toWord, Fields.mk.injEq]
  refine ⟨?_, ?_, ?_, ?_, ?_, ?_, ?_⟩ <;>
    · ext i hi
      simp only [BitVec.getElem_extractLsb', BitVec.getLsbD_append]
      interval_cases i <;> simp [BitVec.getLsbD_eq_getElem]

theorem Fields.toWord_ofWord (w : CmdWord) : (Fields.ofWord w).toWord = w := by
  ext i hi
  simp only [Fields.ofWord, Fields.toWord, ← BitVec.getLsbD_eq_getElem, BitVec.getLsbD_append, BitVec.getLsbD_extractLsb']
  interval_cases i <;> simp

theorem Fields.toWord_inj {f g : Fields} : f.toWord = g.toWord ↔ f = g :=
  ⟨fun h => by rw [← Fields.ofWord_toWord f, h, Fields.ofWord_toWord], fun h => by rw [h]⟩

theorem Fields.toWord_and (f g : Fields) :
    f.toWord &&& g.toWord =
      Fields.toWord ⟨f.op &&& g.op, f.rd &&& g.rd, f.rs1 &&& g.rs1, f.rs2 &&& g.rs2, f.rs3 &&& g.rs3, f.rd2 &&& g.rd2, f.zero &&& g.zero⟩ := by
  show (f.op ++ f.rd ++ f.rs1 ++ f.rs2 ++ f.rs3 ++ f.rd2 ++ f.zero : BitVec (8 + 4 + 4 + 4 + 4 + 4 + 4)) &&&
      (g.op ++ g.rd ++ g.rs1 ++ g.rs2 ++ g.rs3 ++ g.rd2 ++ g.zero : BitVec (8 + 4 + 4 + 4 + 4 + 4 + 4)) = _
  rw [BitVec.and_append, BitVec.and_append, BitVec.and_append, BitVec.and_append, BitVec.and_append, BitVec.and_append]
  rfl

/-- The opcode alone, as a word. -/
theorem toWord_op (b : BitVec 8) : b.zeroExtend 32 <<< 24 = Fields.toWord ⟨b, 0, 0, 0, 0, 0, 0⟩ := by
  ext i hi
  simp only [Fields.toWord, ← BitVec.getLsbD_eq_getElem, BitVec.getLsbD_append, BitVec.getLsbD_shiftLeft, BitVec.getLsbD_setWidth]
  interval_cases i <;> simp

/-! ### The masks (R72) -/

/-- A register field under a mask nibble. -/
def nibble (used : Bool) : BitVec 4 := if used then 0x0 else 0xF

theorem mask_eq (fm : Format) :
    fm.mask = Fields.toWord ⟨0xFF, nibble fm.uses.rd, nibble fm.uses.rs1, nibble fm.uses.rs2, nibble fm.uses.rs3, nibble fm.uses.rd2, 0xF⟩ := by
  cases fm <;> rfl

theorem and_nibble_eq_zero (b : BitVec 4) (used : Bool) : b &&& nibble used = 0 ↔ (used = false → b = 0) := by
  cases used
  · have : b &&& 15#4 = b := BitVec.and_allOnes
    simp [nibble, this]
  · simp [nibble]

/-- What a mask tests: the opcode, the fields the format does not use, and `zero`. -/
theorem and_mask_eq_iff (w : CmdWord) (fm : Format) (b : BitVec 8) :
    w &&& fm.mask = b.zeroExtend 32 <<< 24 ↔ (Fields.ofWord w).op = b ∧ (Fields.ofWord w).UnusedZero fm.uses := by
  conv_lhs => rw [← Fields.toWord_ofWord w, mask_eq, Fields.toWord_and, toWord_op, Fields.toWord_inj]
  have h8 : (Fields.ofWord w).op &&& (0xFF : BitVec 8) = (Fields.ofWord w).op := BitVec.and_allOnes
  have h4 : (Fields.ofWord w).zero &&& (0xF : BitVec 4) = (Fields.ofWord w).zero := BitVec.and_allOnes
  simp only [Fields.mk.injEq, and_nibble_eq_zero, h8, h4, Fields.UnusedZero]

/-! ### The opcode table (R74) -/

theorem Opcode.mem_all (o : Opcode) : o ∈ Opcode.all := by cases o <;> decide

theorem Opcode.byte_inj {o p : Opcode} (h : o.byte = p.byte) : o = p := by
  revert h; revert p; revert o
  intro o p
  cases o <;> cases p <;> first | (intro; rfl) | (intro h; exact absurd h (by decide))

theorem Opcode.ofByte_byte (o : Opcode) : Opcode.ofByte o.byte = some o := by cases o <;> rfl

theorem Opcode.ofByte_eq_some_iff (b : BitVec 8) (o : Opcode) : Opcode.ofByte b = some o ↔ o.byte = b := by
  constructor
  · intro h
    have := List.find?_some h
    simpa using this
  · rintro rfl; exact Opcode.ofByte_byte o

theorem Opcode.ofByte_eq_none_iff (b : BitVec 8) : Opcode.ofByte b = none ↔ ∀ o : Opcode, o.byte ≠ b := by
  constructor
  · intro h o ho
    rw [(Opcode.ofByte_eq_some_iff b o).2 ho] at h
    cases h
  · intro h
    cases hc : Opcode.ofByte b with
    | none => rfl
    | some o => exact absurd ((Opcode.ofByte_eq_some_iff b o).1 hc) (h o)

/-! ### The decoder (R77) -/

/-- The decoder on a word given by its fields. -/
theorem decode_toWord {o : Opcode} {f : Fields} (hop : f.op = o.byte) (hu : f.UnusedZero o.format.uses)
    (hd : ¬ (o.format.twoDestinations = true ∧ f.rd = f.rd2)) : decode f.toWord = .ok (o.command f) := by
  have hm := (and_mask_eq_iff f.toWord o.format f.op).2 (by rw [Fields.ofWord_toWord]; exact ⟨rfl, hu⟩)
  unfold decode
  simp only [Fields.ofWord_toWord]
  rw [hop, Opcode.ofByte_byte]
  simp only
  rw [if_neg (by rw [← hop]; exact not_not.2 hm), if_neg hd]

/-- Everything the decoder can do. -/
theorem decode_cases (w : CmdWord) :
    (decode w = .error .unassignedOpcode ∧ ∀ o : Opcode, o.byte ≠ (Fields.ofWord w).op) ∨
    ∃ o : Opcode, o.byte = (Fields.ofWord w).op ∧
      ((decode w = .error .nonzeroField ∧ ¬ (Fields.ofWord w).UnusedZero o.format.uses) ∨
       (decode w = .error .sameDestination ∧ (Fields.ofWord w).UnusedZero o.format.uses ∧ o.format.twoDestinations = true ∧
          (Fields.ofWord w).rd = (Fields.ofWord w).rd2) ∨
       (decode w = .ok (o.command (Fields.ofWord w)) ∧ (Fields.ofWord w).UnusedZero o.format.uses ∧
          ¬ (o.format.twoDestinations = true ∧ (Fields.ofWord w).rd = (Fields.ofWord w).rd2))) := by
  unfold decode
  dsimp only
  cases ho : Opcode.ofByte (Fields.ofWord w).op with
  | none => exact .inl ⟨rfl, (Opcode.ofByte_eq_none_iff _).1 ho⟩
  | some o =>
    have hb := (Opcode.ofByte_eq_some_iff _ _).1 ho
    refine .inr ⟨o, hb, ?_⟩
    have hm := and_mask_eq_iff w o.format (Fields.ofWord w).op
    dsimp only
    split
    · rename_i h
      exact .inl ⟨rfl, fun hu => h (hm.2 ⟨rfl, hu⟩)⟩
    · rename_i h
      have hu := (hm.1 (not_not.1 h)).2
      split
      · rename_i h2
        exact .inr (.inl ⟨rfl, hu, h2⟩)
      · rename_i h2
        exact .inr (.inr ⟨rfl, hu, h2⟩)

theorem Opcode.twoDestinations_iff (o : Opcode) : o.format.twoDestinations = true ↔ o = .div ∨ o = .modexp := by
  cases o <;> simp [Opcode.format, Format.twoDestinations]

/-! ### Register fields (R73) -/

@[simp] theorem regOfBits_regBits (r : Reg) : regOfBits (regBits r) = r := rfl

@[simp] theorem regBits_regOfBits (b : BitVec 4) : regBits (regOfBits b) = b := rfl

@[simp] theorem Opcode.opcode_command (o : Opcode) (f : Fields) : (o.command f).opcode = o := by cases o <;> rfl

end Sys2Proof
end

