-- ==== Sys2Proof/Laws/PerInstr.lean ====
section
/-! SUPPORT. What holds of every command as syntax, one lemma per constructor: the word of a command passes the mask of its format
(30_encoding.md R72). -/

namespace Sys2Proof.Laws.EncodeMasked

open Sys2Proof

/-- "a word `w` selects a command with opcode `op` of that format exactly when `w & mask = op << 24`" (R72), for the word of `i`. -/
def Statement (i : Instr) : Prop := encode i &&& i.opcode.format.mask = i.opcode.byte.zeroExtend 32 <<< 24

/-- The word of an opcode whose unused fields are zero passes the mask. -/
theorem wordOf_masked (o : Opcode) (rd rs1 rs2 rs3 rd2 : BitVec 4)
    (h : (o.format.uses.rd = false → rd = 0) ∧ (o.format.uses.rs1 = false → rs1 = 0) ∧ (o.format.uses.rs2 = false → rs2 = 0) ∧
      (o.format.uses.rs3 = false → rs3 = 0) ∧ (o.format.uses.rd2 = false → rd2 = 0)) :
    wordOf o rd rs1 rs2 rs3 rd2 &&& o.format.mask = o.byte.zeroExtend 32 <<< 24 := by
  rw [and_mask_eq_iff, wordOf, Fields.ofWord_toWord]
  exact ⟨rfl, h.1, h.2.1, h.2.2.1, h.2.2.2.1, h.2.2.2.2, rfl⟩

theorem nop : Statement .nop := wordOf_masked .nop _ _ _ _ _ (by simp [Opcode.format, Format.uses])

theorem clr (rd : Reg) : Statement (.clr rd) := wordOf_masked .clr _ _ _ _ _ (by simp [Opcode.format, Format.uses])

theorem copy (rd rs1 : Reg) : Statement (.copy rd rs1) := wordOf_masked .copy _ _ _ _ _ (by simp [Opcode.format, Format.uses])

theorem ldi (rd : Reg) : Statement (.ldi rd) := wordOf_masked .ldi _ _ _ _ _ (by simp [Opcode.format, Format.uses])

theorem pushl (rd : Reg) : Statement (.pushl rd) := wordOf_masked .pushl _ _ _ _ _ (by simp [Opcode.format, Format.uses])

theorem neg (rd rs1 : Reg) : Statement (.neg rd rs1) := wordOf_masked .neg _ _ _ _ _ (by simp [Opcode.format, Format.uses])

theorem rdl (rs1 : Reg) : Statement (.rdl rs1) := wordOf_masked .rdl _ _ _ _ _ (by simp [Opcode.format, Format.uses])

theorem rdlen (rs1 : Reg) : Statement (.rdlen rs1) := wordOf_masked .rdlen _ _ _ _ _ (by simp [Opcode.format, Format.uses])

theorem rdsgn (rs1 : Reg) : Statement (.rdsgn rs1) := wordOf_masked .rdsgn _ _ _ _ _ (by simp [Opcode.format, Format.uses])

theorem rdst : Statement .rdst := wordOf_masked .rdst _ _ _ _ _ (by simp [Opcode.format, Format.uses])

theorem clrf : Statement .clrf := wordOf_masked .clrf _ _ _ _ _ (by simp [Opcode.format, Format.uses])

theorem bitlen (rs1 : Reg) : Statement (.bitlen rs1) := wordOf_masked .bitlen _ _ _ _ _ (by simp [Opcode.format, Format.uses])

theorem add (rd rs1 rs2 : Reg) : Statement (.add rd rs1 rs2) := wordOf_masked .add _ _ _ _ _ (by simp [Opcode.format, Format.uses])

theorem sub (rd rs1 rs2 : Reg) : Statement (.sub rd rs1 rs2) := wordOf_masked .sub _ _ _ _ _ (by simp [Opcode.format, Format.uses])

theorem cmp (rs1 rs2 : Reg) : Statement (.cmp rs1 rs2) := wordOf_masked .cmp _ _ _ _ _ (by simp [Opcode.format, Format.uses])

theorem shr (rd rs1 : Reg) : Statement (.shr rd rs1) := wordOf_masked .shr _ _ _ _ _ (by simp [Opcode.format, Format.uses])

theorem div3 (rd rs1 : Reg) : Statement (.div3 rd rs1) := wordOf_masked .div3 _ _ _ _ _ (by simp [Opcode.format, Format.uses])

theorem pow2 (rd : Reg) : Statement (.pow2 rd) := wordOf_masked .pow2 _ _ _ _ _ (by simp [Opcode.format, Format.uses])

theorem muls (rd rs1 rs2 : Reg) : Statement (.muls rd rs1 rs2) := wordOf_masked .muls _ _ _ _ _ (by simp [Opcode.format, Format.uses])

theorem mulk (rd rs1 rs2 : Reg) : Statement (.mulk rd rs1 rs2) := wordOf_masked .mulk _ _ _ _ _ (by simp [Opcode.format, Format.uses])

theorem mult3 (rd rs1 rs2 : Reg) : Statement (.mult3 rd rs1 rs2) := wordOf_masked .mult3 _ _ _ _ _ (by simp [Opcode.format, Format.uses])

theorem div (rd rd2 rs1 rs2 : Reg) : Statement (.div rd rd2 rs1 rs2) := wordOf_masked .div _ _ _ _ _ (by simp [Opcode.format, Format.uses])

theorem mod (rd rs1 rs2 : Reg) : Statement (.mod rd rs1 rs2) := wordOf_masked .mod _ _ _ _ _ (by simp [Opcode.format, Format.uses])

theorem montmul (rd rs1 rs2 rs3 : Reg) : Statement (.montmul rd rs1 rs2 rs3) := wordOf_masked .montmul _ _ _ _ _ (by simp [Opcode.format, Format.uses])

theorem modexp (rd rd2 rs1 rs2 rs3 : Reg) : Statement (.modexp rd rd2 rs1 rs2 rs3) := wordOf_masked .modexp _ _ _ _ _ (by simp [Opcode.format, Format.uses])

theorem gcd (rd rs1 rs2 : Reg) : Statement (.gcd rd rs1 rs2) := wordOf_masked .gcd _ _ _ _ _ (by simp [Opcode.format, Format.uses])

end Sys2Proof.Laws.EncodeMasked
end

