-- ==== Sys2Proof/Tests/Slice0.lean ====
section
/-! SUPPORT. The model's own tests. Expected results are the spec's: the encodings of 30_encoding.md (R71 to R74, R81), the vectors of
95_test_vectors.md, and the examples of the instruction rules. After them, one witness per obligation that has hypotheses. -/

namespace Sys2Proof.Tests

open Sys2Proof Sys2Proof.Machine

/-! ### Helpers -/

/-- A positive content. -/
def p (L : List Limb) : BigInt := ⟨.pos, L⟩

/-- A negative content. -/
def n (L : List Limb) : BigInt := ⟨.neg, L⟩

/-- The zero content. -/
def z : BigInt := BigInt.zero

/-- The greatest limb. -/
def M : Limb := 0xFFFFFFFFFFFFFFFF

/-- The state after reset of a machine with `MAXLIMBS = cap`, with `x1`, `x2`, … holding these contents, and this scalar. -/
def small (cap : Nat) (contents : List BigInt) (arg : Scalar := 0) : State :=
  { State.resetWith cap with regs := Vector.ofFn (fun i : Fin 16 => (z :: contents).getD i z), arg := arg }

/-- Something of the next state of a command. -/
def after {α : Type} (i : Instr) (s : State) (f : State → α) : Option α :=
  match exec i s with
  | .next t => some (f t)
  | .fault _ | .refused _ => none

/-- The content of one register after a command, and the response. -/
def regAndRsp (i : Instr) (s : State) (r : Reg) : Option (BigInt × Option Response) := after i s (fun t => (t.reg r, t.rsp))

/-- The response of a success. -/
def ok (res : Scalar := 0) : Option Response := some ⟨.none, res⟩

/-- The response of a failure. -/
def err (e : Err) : Option Response := some ⟨e, 0⟩

/-! ### Well-formedness (R76) -/

theorem test_wf_div_same_destination : (Instr.div 4 4 1 2).wf = false := by decide

theorem test_wf_modexp_same_destination : (Instr.modexp 15 15 1 2 3).wf = false := by decide

theorem test_wf_div : (Instr.div 4 5 4 4).wf = true := by decide

/-! ### Decoding: one word per constructor, written out from R71, R72 and R74 (most of them in R81 and section E of 95_test_vectors.md) -/

theorem test_decode_nop : decode 0x00000000 = .ok .nop := by decide
theorem test_decode_clr : decode 0x01500000 = .ok (.clr 5) := by decide
theorem test_decode_copy : decode 0x02210000 = .ok (.copy 2 1) := by decide
theorem test_decode_ldi : decode 0x03100000 = .ok (.ldi 1) := by decide
theorem test_decode_pushl : decode 0x04100000 = .ok (.pushl 1) := by decide
theorem test_decode_neg : decode 0x05210000 = .ok (.neg 2 1) := by decide
theorem test_decode_rdl : decode 0x06010000 = .ok (.rdl 1) := by decide
theorem test_decode_rdlen : decode 0x070F0000 = .ok (.rdlen 15) := by decide
theorem test_decode_rdsgn : decode 0x08090000 = .ok (.rdsgn 9) := by decide
theorem test_decode_rdst : decode 0x09000000 = .ok .rdst := by decide
theorem test_decode_clrf : decode 0x0A000000 = .ok .clrf := by decide
theorem test_decode_bitlen : decode 0x10010000 = .ok (.bitlen 1) := by decide
theorem test_decode_add : decode 0x20312000 = .ok (.add 3 1 2) := by decide
theorem test_decode_sub : decode 0x21332000 = .ok (.sub 3 3 2) := by decide
theorem test_decode_cmp : decode 0x22012000 = .ok (.cmp 1 2) := by decide
theorem test_decode_shr : decode 0x23210000 = .ok (.shr 2 1) := by decide
theorem test_decode_div3 : decode 0x24210000 = .ok (.div3 2 1) := by decide
theorem test_decode_pow2 : decode 0x25100000 = .ok (.pow2 1) := by decide
theorem test_decode_muls : decode 0x30312000 = .ok (.muls 3 1 2) := by decide
theorem test_decode_mulk : decode 0x31312000 = .ok (.mulk 3 1 2) := by decide
theorem test_decode_mult3 : decode 0x32312000 = .ok (.mult3 3 1 2) := by decide
theorem test_decode_div : decode 0x404120F0 = .ok (.div 4 15 1 2) := by decide
theorem test_decode_mod : decode 0x41512000 = .ok (.mod 5 1 2) := by decide
theorem test_decode_montmul : decode 0x50312900 = .ok (.montmul 3 1 2 9) := by decide
theorem test_decode_modexp : decode 0x51612370 = .ok (.modexp 6 7 1 2 3) := by decide
theorem test_decode_gcd : decode 0x600FF000 = .ok (.gcd 0 15 15) := by decide

/-- Illegal words of section E: a nonzero field that the format does not use. -/
theorem test_decode_nonzero_field :
    decode 0x00100000 = .error .nonzeroField ∧ decode 0x01510000 = .error .nonzeroField ∧ decode 0x06110000 = .error .nonzeroField ∧
    decode 0x22112000 = .error .nonzeroField ∧ decode 0x23212000 = .error .nonzeroField ∧ decode 0x20312100 = .error .nonzeroField ∧
    decode 0x20312001 = .error .nonzeroField ∧ decode 0x50312910 = .error .nonzeroField ∧
    decode 0x51612371 = .error .nonzeroField := by decide

/-- Illegal words of section E: equal destinations. -/
theorem test_decode_same_destination :
    decode 0x40412040 = .error .sameDestination ∧ decode 0x51612360 = .error .sameDestination ∧
    decode 0x51FEFFF0 = .error .sameDestination := by decide

/-- Illegal words of section E: unassigned opcodes. -/
theorem test_decode_unassigned :
    decode 0x0B000000 = .error .unassignedOpcode ∧ decode 0x11000000 = .error .unassignedOpcode ∧
    decode 0x26000000 = .error .unassignedOpcode ∧ decode 0x61000000 = .error .unassignedOpcode ∧
    decode 0xFFFFFFFF = .error .unassignedOpcode := by decide

/-! ### The port -/

/-- R109's example, the first command: after reset, `DIV x1, x2, x3, x4`, then what `RDST` would return. -/
theorem test_step_div_by_zero :
    (match step ((State.resetWith 4).withFetchWord 32 0x40134020) with
      | .next t => some (t.rsp, t.status.word)
      | .fault _ | .refused _ => none) = some (err .divisionByZero, 0x414) := by decide

/-- An illegal word through the port (R75). -/
theorem test_step_illegal :
    (match step ((State.resetWith 4).present 0x09100000 7) with
      | .next t => some (t.rsp, t.status.word, t.pending)
      | .fault _ | .refused _ => none) = some (err .illegalCommand, 0x616, []) := by decide

/-- `LDN` of `-2^64` (R80): the commands of section P for that value. -/
theorem test_ldn : (Pseudo.ldn 1 (-2 ^ 64)).expand = [(.clr 1, 0), (.pushl 1, 1), (.pushl 1, 0), (.neg 1 1, 0)] := by decide

/-- The examples of R79, in their order. -/
theorem test_assemble :
    (Line.command .add [3, 1, 2] none).assemble = some [(.add 3 1 2, 0)] ∧
    (Line.command .div [4, 5, 1, 2] none).assemble = some [(.div 4 5 1 2, 0)] ∧
    (Line.command .montmul [3, 1, 2, 9] none).assemble = some [(.montmul 3 1 2 9, 0)] ∧
    (Line.command .modexp [6, 7, 1, 2, 3] none).assemble = some [(.modexp 6 7 1 2 3, 0)] ∧
    (Line.command .shr [2, 1] (some 65)).assemble = some [(.shr 2 1, 65)] ∧
    (Line.command .rdl [1] (some 0)).assemble = some [(.rdl 1, 0)] := by decide

/-! ### Data movement and status (section P) -/

theorem test_nop : after .nop { small 2 [] with status := ⟨.divisionByZero, true, .divisionByZero, .zero⟩ } (fun t => (t.status, t.rsp)) =
    some (⟨.none, true, .divisionByZero, .zero⟩, ok) := by decide

theorem test_clr : regAndRsp (.clr 1) (small 2 [n [1, 0]]) 1 = some (z, ok) := by decide

theorem test_copy : regAndRsp (.copy 2 1) (small 2 [n [5]]) 2 = some (n [5], ok) := by decide

theorem test_ldi : regAndRsp (.ldi 1) (small 1 [n [5]] M) 1 = some (p [M], ok) := by decide

theorem test_ldi_zero : regAndRsp (.ldi 1) (small 1 [n [5]] 0) 1 = some (z, ok) := by decide

theorem test_pushl_negative : regAndRsp (.pushl 1) (small 2 [n [1]] 7) 1 = some (n [1, 7], ok) := by decide

theorem test_pushl_full : regAndRsp (.pushl 1) (small 2 [p [M, M]] 1) 1 = some (p [M, M], err .allocationFailed) := by decide

theorem test_neg : regAndRsp (.neg 1 1) (small 2 [n [7]]) 1 = some (p [7], ok) := by decide

theorem test_neg_zero : regAndRsp (.neg 2 1) (small 2 [z, p [3]]) 2 = some (z, ok) := by decide

theorem test_rdl : regAndRsp (.rdl 1) (small 2 [p [1, 5]] 1) 1 = some (p [1, 5], ok 5) := by decide

theorem test_rdl_out_of_range : regAndRsp (.rdl 1) (small 2 [p [1, 5]] 2) 1 = some (p [1, 5], err .badInputData) := by decide

theorem test_rdlen : regAndRsp (.rdlen 1) (small 2 [n [1, 0]]) 1 = some (n [1, 0], ok 2) := by decide

theorem test_rdsgn : regAndRsp (.rdsgn 1) (small 2 [n [7]]) 1 = some (n [7], ok 3) := by decide

/-- R109's example, the read. -/
theorem test_rdst : after .rdst { small 2 [] with status := ⟨.divisionByZero, true, .divisionByZero, .zero⟩ } (fun t => (t.status.word, t.rsp)) =
    some (0x414, ok 0x414) := by decide

/-- R110's example. -/
theorem test_clrf : after .clrf { small 2 [] with status := ⟨.divisionByZero, true, .divisionByZero, .zero⟩ } (fun t => (t.status.word, t.rsp)) =
    some (0, ok) := by decide

/-! ### Representation and linear arithmetic (sections P and L) -/

theorem test_bitlen : regAndRsp (.bitlen 1) (small 2 [n [1, 0]]) 1 = some (n [1, 0], ok 65) := by decide

/-- R123's example. -/
theorem test_bitlen_497 : regAndRsp (.bitlen 1) (small 2 [p [497]]) 1 = some (p [497], ok 9) := by decide

theorem test_add_carry : regAndRsp (.add 3 1 2) (small 3 [p [M, M], p [1]]) 3 = some (p [1, 0, 0], ok) := by decide

theorem test_add_capacity : regAndRsp (.add 3 1 2) (small 2 [n [M, M], n [1], p [9]]) 3 = some (p [9], err .allocationFailed) := by decide

theorem test_sub_borrow : regAndRsp (.sub 3 1 2) (small 3 [p [1, 0, 0], p [1]]) 3 = some (p [M, M], ok) := by decide

theorem test_sub_sign : regAndRsp (.sub 3 1 2) (small 3 [n [3], n [5]]) 3 = some (p [2], ok) := by decide

theorem test_cmp_negative : after (.cmp 1 2) (small 2 [n [5], n [3]]) (fun t => (t.status.cmp.code, t.rsp)) = some (0b11, ok 3) := by decide

theorem test_cmp_count : after (.cmp 1 2) (small 2 [n [1], n [1, 0]]) (fun t => (t.status.cmp.code, t.rsp)) = some (0b01, ok 1) := by decide

theorem test_shr : regAndRsp (.shr 2 1) (small 3 [p [1, 2, 3]] 68) 2 = some (p [0x1000000000000000], ok) := by decide

theorem test_shr_toward_zero : regAndRsp (.shr 2 1) (small 3 [n [3]] 1) 2 = some (n [1], ok) := by decide

theorem test_div3 : regAndRsp (.div3 2 1) (small 3 [n [2, 0xFFFFFFFFFFFFFFFD]]) 2 = some (n [M], ok) := by decide

theorem test_div3_borrow : regAndRsp (.div3 2 1) (small 3 [p [1, 2]]) 2 = some (p [0x5555555555555556], ok) := by decide

theorem test_pow2 : regAndRsp (.pow2 1) (small 3 [] 128) 1 = some (p [1, 0, 0], ok) := by decide

theorem test_pow2_capacity : regAndRsp (.pow2 1) (small 2 [p [9]] 0xFFFFFFFFFFFFFFFF) 1 = some (p [9], err .allocationFailed) := by decide

/-! ### Multiplication (section M) -/

theorem test_muls : regAndRsp (.muls 3 1 2) (small 6 [n [1, 2, 3], p [4, 5, 6]]) 3 = some (n [4, 0xD, 0x1C, 0x1B, 0x12], ok) := by decide

theorem test_muls_capacity : regAndRsp (.muls 3 1 2) (small 2 [p [M, M], p [M, M], p [9]]) 3 = some (p [9], err .allocationFailed) := by
  decide

theorem test_mulk : regAndRsp (.mulk 3 1 2) (small 6 [p [1, 2, 3], p [4, 5]]) 3 = some (p [4, 0xD, 0x16, 0xF], ok) := by decide +kernel

theorem test_mulk_carries : regAndRsp (.mulk 3 1 2) (small 6 [p [M, M, M], p [M, M, M]]) 3 =
    some (p [M, M, 0xFFFFFFFFFFFFFFFE, 0, 0, 1], ok) := by decide +kernel

theorem test_mult3 : regAndRsp (.mult3 3 1 2) (small 7 [p [1, 2, 3, 4], p [5, 6, 7, 8]]) 3 =
    some (p [5, 0x10, 0x22, 0x3C, 0x3D, 0x34, 0x20], ok) := by decide +kernel

theorem test_mult3_carries : regAndRsp (.mult3 3 1 2) (small 6 [p [M, M, M], p [M, M, M]]) 3 =
    some (p [M, M, 0xFFFFFFFFFFFFFFFE, 0, 0, 1], ok) := by decide +kernel

/-! ### Division (section D) -/

theorem test_div : after (.div 3 4 1 2) (small 3 [p [7], n [2]]) (fun t => (t.reg 3, t.reg 4, t.rsp)) = some (n [4], n [1], ok) := by
  decide +kernel

theorem test_div_multi_limb : after (.div 3 4 1 2) (small 3 [n [1, 0, 0], p [1, 0xD]]) (fun t => (t.reg 3, t.reg 4, t.rsp)) =
    some (n [0xFFFFFFFFFFFFFFF4], p [0xFFFFFFFFFFFFFF64], ok) := by decide +kernel

theorem test_mod : regAndRsp (.mod 5 1 2) (small 3 [n [7], p [2]]) 5 = some (p [1], ok) := by decide +kernel

theorem test_mod_by_zero : regAndRsp (.mod 1 1 2) (small 3 [p [9], z]) 1 = some (p [9], err .divisionByZero) := by decide

/-! ### Montgomery arithmetic (section X) -/

theorem test_montmul : regAndRsp (.montmul 4 1 2 3) (small 2 [p [5], p [7], p [1, 0xD]]) 4 = some (p [0x368854D4122D719F], ok) := by
  decide +kernel

theorem test_montmul_domain : regAndRsp (.montmul 4 1 2 3) (small 2 [p [3], p [7], p [7], p [9]]) 4 = some (p [9], err .badInputData) := by
  decide +kernel

theorem test_modexp : after (.modexp 4 5 1 2 3) (small 2 [p [4], p [0xD], p [0x1F1]]) (fun t => (t.reg 4, t.reg 5, t.rsp)) =
    some (p [0x1BD], p [0xF2], ok) := by decide +kernel

theorem test_modexp_two_limbs : after (.modexp 4 5 1 2 3) (small 2 [p [2], p [1, 0], p [1, 0xD]]) (fun t => (t.reg 4, t.reg 5, t.rsp)) =
    some (p [0x13B0000000000001], p [0x6F91], ok) := by decide +kernel

/-! ### Greatest common divisor (section G) -/

theorem test_gcd_lehmer : regAndRsp (.gcd 3 1 2) (small 3 [n [0xF, 0x44, 0x4D], p [6, 0x17, 0x15]]) 3 = some (p [0x15, 0x31], ok) := by
  decide +kernel

theorem test_gcd_zero : regAndRsp (.gcd 3 1 2) (small 3 [z, n [5]]) 3 = some (p [5], ok) := by decide +kernel

/-! ### Witnesses: states and operands that meet the hypotheses of the obligations, clause by clause -/

/-- A state within the invariant, with a full register, a one-limb one, a negative one and zeros, and `MAXLIMBS = 2`. -/
def full : State := small 2 [p [M, M], p [1], n [7], p [5]] 1

/-- `full` after a command that failed. -/
def faulted : State := { full with status := ⟨.badInputData, true, .divisionByZero, .neg⟩ }

theorem witness_Inv : full.Inv ∧ faulted.Inv ∧ (small 1 [p [M]] 63).Inv := by decide

theorem witness_ResetState : ∃ s : State, s = State.reset ∨ ∃ n, s = State.resetWith n := ⟨State.resetWith 1, .inr ⟨1, rfl⟩⟩

theorem witness_ResetInvariant : (1 ≤ 1 ∧ 1 ≤ 2 ^ 32) ∧ (1 ≤ 2 ^ 32 ∧ 2 ^ 32 ≤ 2 ^ 32) := by decide

theorem witness_ResetEvent : ({ full with pending := [.rst, .cmd 0 0] } : State).pending = .rst :: [.cmd 0 0] := by decide

theorem witness_StepKeepsInvariant : ({ faulted with pending := [.cmd 0x40134020 0] } : State).Inv := by decide

theorem witness_StepRunsDecodedCommand :
    ({ full with pending := [.cmd 0x20312000 5] } : State).pending = .cmd 0x20312000 5 :: [] ∧ decode 0x20312000 = .ok (.add 3 1 2) := by
  decide

theorem witness_IllegalWordRaises_opcode : Illegal 0x0B000000 := .inl (by intro o; cases o <;> decide)

theorem witness_IllegalWordRaises_field : Illegal 0x20312100 := .inr ⟨.add, by decide, .inl (by decide)⟩

theorem witness_IllegalWordRaises_zero : Illegal 0x20312001 := .inr ⟨.add, by decide, .inl (by decide)⟩

theorem witness_IllegalWordRaises_destinations : Illegal 0x40412040 := .inr ⟨.div, by decide, .inr (by decide)⟩

theorem witness_DecodeOfEncode : (Instr.modexp 15 14 15 15 15).wf = true ∧ (Instr.div 0 15 0 0).wf = true := by decide

theorem witness_EncodeOfDecode : decode 0x51FFFFE0 = .ok (.modexp 15 14 15 15 15) := by decide

theorem witness_CopyCopiesValue : full.Inv ∧ (3 : Reg) ≠ 2 := by decide

theorem witness_LdiLoadsScalar : (small 1 [n [5]] M).Inv ∧ (small 1 [n [5]] 0).Inv := by decide

theorem witness_PushlAppendsLimb_full : full.Inv ∧ full.value 1 ≠ 0 ∧ full.len 1 = full.cfg.maxLimbs := by decide

theorem witness_PushlAppendsLimb_room :
    full.Inv ∧ ¬ (full.value 2 ≠ 0 ∧ full.len 2 = full.cfg.maxLimbs) ∧ ¬ (full.value 9 ≠ 0 ∧ full.len 9 = full.cfg.maxLimbs) := by decide

theorem witness_NegNegates : full.Inv ∧ full.value 3 = -7 := by decide

theorem witness_RdlReadsLimb : (full.limbsOf 1)[full.arg.toNat]? = some M ∧ full.len 2 ≤ full.arg.toNat ∧ full.len 9 ≤ full.arg.toNat := by
  decide

theorem witness_RdlenReadsLength : full.Inv ∧ full.len 1 = 2 := by decide

theorem witness_RdsgnReadsSign : full.Inv ∧ full.value 1 > 0 ∧ full.value 3 < 0 ∧ full.value 9 = 0 := by decide

theorem witness_LdnLoadsInteger : full.Inv ∧ Fits full (-(2 ^ 128 - 1)) := by decide

theorem witness_BitlenCountsBits : full.Inv ∧ (full.value 1).natAbs < 2 ^ 128 ∧ ¬ (full.value 1).natAbs < 2 ^ 127 := by decide

theorem witness_AddIsExact_fits : full.Inv ∧ Fits full (full.value 1 + full.value 3) := by decide

theorem witness_AddIsExact_fails : full.Inv ∧ ¬ Fits full (full.value 1 + full.value 2) := by decide

theorem witness_SubIsExact_fits : full.Inv ∧ Fits full (full.value 1 - full.value 2) := by decide

theorem witness_SubIsExact_fails : full.Inv ∧ ¬ Fits full (full.value 1 - full.value 3) := by decide

theorem witness_AdditiveInverse : full.Inv ∧ (1 : Reg) ≠ 3 ∧ Fits full (full.value 1 + full.value 3) := by decide

theorem witness_CmpCompares : full.Inv ∧ full.value 3 < full.value 2 ∧ full.value 2 < full.value 1 ∧ full.value 9 = full.value 10 := by decide

theorem witness_ShrShiftsMagnitude : full.Inv ∧ full.value 3 < 0 ∧ full.arg = 1 := by decide

theorem witness_Div3OfMultiple : full.Inv ∧ full.value 1 = 3 * 0x55555555555555555555555555555555 := by decide

theorem witness_Div3OfNonMultiple : ¬ (3 : Int) ∣ full.value 2 ∧ ¬ (3 : Int) ∣ full.value 3 := by decide

theorem witness_Pow2BuildsPower_fits : (small 2 [] 127).arg.toNat / 64 + 1 ≤ (small 2 [] 127).cfg.maxLimbs := by decide

theorem witness_Pow2BuildsPower_fails : (small 2 [] 128).arg.toNat / 64 + 1 > (small 2 [] 128).cfg.maxLimbs := by decide

theorem witness_MulsMultiplies_fits : full.Inv ∧ Fits full (full.value 3 * full.value 4) ∧ full.value 3 ≠ 0 ∧ full.value 4 ≠ 0 := by decide

theorem witness_MulsMultiplies_fails : full.Inv ∧ ¬ Fits full (full.value 1 * full.value 3) := by decide

theorem witness_MulkMultiplies :
    full.Inv ∧ Fits full (full.value 1 * full.value 2) ∧ ¬ Fits full (full.value 1 * full.value 1) := by decide

theorem witness_Mult3Multiplies :
    full.Inv ∧ Fits full (full.value 1 * full.value 9) ∧ ¬ Fits full (full.value 1 * full.value 4) := by decide

theorem witness_MultipliersInterchangeable : (small 6 [p [1, 2, 3], n [4, 5]]).Inv := by decide

theorem witness_DivIsFloored : full.Inv ∧ (8 : Reg) ≠ 9 ∧ full.value 3 ≠ 0 ∧ full.value 10 = 0 := by decide

/-- Quotient to `x8`, remainder to `x9`, product to `x10`; and the product of the quotient and the divisor fits. -/
theorem witness_DivisionLaw :
    full.Inv ∧ (8 : Reg) ≠ 9 ∧ (8 : Reg) ≠ 3 ∧ (9 : Reg) ≠ 3 ∧ (10 : Reg) ≠ 9 ∧ full.value 3 ≠ 0 ∧
    after (.div 8 9 4 3) full (fun t => (t.value 8, t.value 9)) = some (-1, -2) ∧ Fits full (-1 * full.value 3) := by decide +kernel

theorem witness_ModIsFloored : full.Inv ∧ full.value 3 ≠ 0 ∧ full.value 10 = 0 := by decide

/-- The domain of `MONTMUL`, at its edges: `X = 0` and `X = N - 1`, and `N = 1`. -/
theorem witness_MontmulIsMontgomeryProduct :
    (small 2 [z, p [6], p [7]]).Inv ∧ (0 : Int) < 7 ∧ (7 : Int) % 2 = 1 ∧
    (small 2 [z, p [6], p [7]]).value 1 = 0 ∧ (small 2 [z, p [6], p [7]]).value 2 = 7 - 1 ∧ (small 2 [z, p [6], p [7]]).value 3 = 7 ∧
    (small 2 [z, z, p [1]]).Inv ∧ (small 2 [z, z, p [1]]).value 3 = 1 := by decide

/-- A state for each violation of the domain of `MONTMUL`: `N = 0`, `N` negative, `N` even, `X` negative, `X = N`, `Y` negative, `Y = N`. -/
theorem witness_MontmulIsMontgomeryProduct_domain :
    (small 2 [p [3], p [5], z]).value 3 ≤ 0 ∧ (small 2 [p [3], p [5], n [7]]).value 3 ≤ 0 ∧ (small 2 [p [3], p [5], p [6]]).value 3 % 2 = 0 ∧
    (small 2 [n [3], p [5], p [7]]).value 1 < 0 ∧ (small 2 [p [7], p [5], p [7]]).value 1 ≥ (small 2 [p [7], p [5], p [7]]).value 3 ∧
    (small 2 [p [3], n [5], p [7]]).value 2 < 0 ∧ (small 2 [p [3], p [7], p [7]]).value 2 ≥ (small 2 [p [3], p [7], p [7]]).value 3 := by
  decide

/-- The domain of `MODEXP`: exponent 0 and modulus 1 are in it. -/
theorem witness_ModexpIsModularPower :
    (small 2 [p [10], z, p [1]]).Inv ∧ (small 2 [p [10], z, p [1]]).value 2 = 0 ∧ (small 2 [p [10], z, p [1]]).value 3 = 1 ∧
    (small 2 [n [3], p [5], p [7]]).Inv ∧ (4 : Reg) ≠ 5 := by decide

/-- A state for each violation of the domain of `MODEXP`: `N = 0`, `N` even, `e` negative. -/
theorem witness_ModexpIsModularPower_domain :
    (small 2 [p [4], p [13], z]).value 3 ≤ 0 ∧ (small 2 [p [4], p [13], p [496]]).value 3 % 2 = 0 ∧ (small 2 [p [4], n [1], p [497]]).value 2 < 0 := by
  decide

theorem witness_GcdIsGreatestCommonDivisor :
    (small 3 [n [0xF, 0x44, 0x4D], p [6, 0x17, 0x15]]).Inv ∧ full.Inv ∧ full.value 9 = 0 := by decide

theorem witness_OneResponsePerCommand :
    ({ full with pending := [.cmd 0xFFFFFFFF 5, .rst] } : State).pending = .cmd 0xFFFFFFFF 5 :: [.rst] ∧ full.pending = [] := by decide

/-- Words that are no inexact `DIV3`: an illegal one, `CLRF`, and a `DIV3` of a multiple of 3. -/
theorem witness_StatusUpdate :
    (∀ i, decode 0xFFFFFFFF = .ok i → ¬ InexactDiv3 i full) ∧ (∀ i, decode 0x0A000000 = .ok i → ¬ InexactDiv3 i full) ∧
    (∀ i, decode 0x24210000 = .ok i → ¬ InexactDiv3 i full) := by
  refine ⟨fun i h => ?_, fun i h => ?_, fun i h => ?_⟩
  · rw [show decode 0xFFFFFFFF = .error .unassignedOpcode by decide] at h; cases h
  · rw [show decode 0x0A000000 = .ok .clrf by decide] at h; cases h; rintro ⟨rd, rs1, h, -⟩; cases h
  · rw [show decode 0x24210000 = .ok (.div3 2 1) by decide] at h; cases h; rintro ⟨rd, rs1, h, hn⟩; cases h
    exact hn (by decide)

theorem witness_FaultIsSticky :
    faulted.status.fault = true ∧ ∀ i, decode 0x20312000 = .ok i → i ≠ .clrf ∧ ¬ InexactDiv3 i faulted := by
  refine ⟨rfl, fun i h => ?_⟩
  rw [show decode 0x20312000 = .ok (.add 3 1 2) by decide] at h; cases h
  exact ⟨by decide, by rintro ⟨rd, rs1, h, -⟩; cases h⟩

theorem witness_OnlyCmpWritesFlag : ∀ a b, decode 0x20312000 ≠ .ok (.cmp a b) := by
  intro a b h
  rw [show decode 0x20312000 = .ok (.add 3 1 2) by decide] at h; cases h

theorem witness_NoCommandReadsStatus : Instr.cmp 1 2 ≠ .rdst ∧ ¬ InexactDiv3 (.cmp 1 2) full := by
  refine ⟨by decide, ?_⟩
  rintro ⟨rd, rs1, h, -⟩; cases h

/-- The polynomial `(4t^2 + 3t + 2)(5t^2 + 6)` and its values at the five points, by hand; one with its two top coefficients 0. -/
theorem witness_ToomDatapathIsExact :
    (⟨12, 99, 33, 312, 20⟩ : FivePoints) = (⟨12, 18, 34, 15, 20⟩ : FiveCoefficients).points ∧
    (⟨2, 3, 4, 0, 0⟩ : FiveCoefficients).r4 = 0 ∧ (⟨2, 3, 4, 0, 0⟩ : FiveCoefficients).r3 = 0 := by decide

/-- Two register files that differ outside the sources of `ADD x3, x1, x2`. -/
theorem witness_ReadsOnlySources :
    (∀ r ∈ (Instr.add 3 1 2).sources, (small 2 [p [M, M], p [1], p [9]]).regs[r] = full.reg r) ∧
    ¬ InexactDiv3 (.add 3 1 2) full := by
  refine ⟨by decide, ?_⟩
  rintro ⟨rd, rs1, h, -⟩; cases h

theorem witness_ErrorTable : full.Inv ∧ ¬ InexactDiv3 (.add 3 1 2) full ∧ ¬ InexactDiv3 (.div3 2 1) full := by
  refine ⟨by decide, ?_, ?_⟩
  · rintro ⟨rd, rs1, h, -⟩; cases h
  · rintro ⟨rd, rs1, h, hn⟩; cases h; exact hn (by decide)

theorem witness_LegalErrorCodes : ({ faulted with pending := [.cmd 0xFFFFFFFF 0] } : State).Inv := by decide

theorem witness_UnusedArgIgnored : (Instr.add 3 1 2).usesArg = false ∧ ¬ InexactDiv3 (.add 3 1 2) full := by
  refine ⟨by decide, ?_⟩
  rintro ⟨rd, rs1, h, -⟩; cases h

theorem witness_ResZeroUnlessSet : ¬ InexactDiv3 (.rdl 2) full ∧ (Instr.add 3 1 2).setsRes = false := by
  refine ⟨?_, by decide⟩
  rintro ⟨rd, rs1, h, -⟩; cases h

end Sys2Proof.Tests
end

section
/-! What a step does with the host's next act, and the two statements about the parameter `MAXLIMBS` (00_scope.md R7). -/

namespace Sys2Proof.Machine

/-! ### One step by the host's next act (R70, R270, R271) -/

theorem step_of_no_act {s : State} (h : s.pending = []) : step s = .next s.idle := by
  simp only [step, serve, h]

theorem step_of_cmd {s : State} {w : CmdWord} {a : Scalar} {rest : List HostEvent} (h : s.pending = .cmd w a :: rest) :
    step s = runWord w (s.accept a rest) := by
  simp only [step, serve, h]

theorem step_of_rst {s : State} {rest : List HostEvent} (h : s.pending = .rst :: rest) : step s = .next (s.resetTo rest) := by
  simp only [step, serve, h]

/-! ### The parameter (R7) -/

/-- A command word leaves the parameter alone, whether it is legal (every end of a command does) or not (an exception does). -/
theorem runWord_keeps_cfg (w : CmdWord) (s : State) : ∃ t, runWord w s = .next t ∧ t.cfg = s.cfg := by
  obtain ⟨_, t, _, _, hrun, hends⟩ | ⟨_, hrun⟩ := runWord_cases w s
  · exact ⟨t, hrun, hends.rest.1⟩
  · exact ⟨_, hrun, raise_cfg _ s⟩

/-- Settles O52, by the host's next act. -/
theorem maxlimbsIsConstant : Obligations.MaxlimbsIsConstant := by
  intro s
  match h : s.pending with
  | [] => exact ⟨_, step_of_no_act h, idle_cfg s⟩
  | .rst :: rest => exact ⟨_, step_of_rst h, resetTo_cfg s rest⟩
  | .cmd w a :: rest =>
    rw [step_of_cmd h]
    exact runWord_keeps_cfg w (s.accept a rest)

/-- Settles O2: `State.reset` is the reset state of the greatest capacity in the range. -/
theorem resetInvariant : Obligations.ResetInvariant :=
  ⟨fun _ h1 h2 => inv_resetWith h1 h2, inv_resetWith (by norm_num) le_rfl⟩

end Sys2Proof.Machine
end

section
/-! Everything one step can do, and what it keeps: the invariant, the legal error codes, `FAULT` and the flag, the registers outside the
destinations (10_state.md R22, R26 to R29, R32). -/

namespace Sys2Proof.Machine

/-! ### Reset (R32) -/

theorem word_statusReset : Status.reset.word = 0 := by decide

/-- R32 for the registers of a machine of any capacity. -/
theorem resetWith_reads_zero (n : Nat) (r : Reg) :
    ((State.resetWith n).reg r).sign.code = 0b00 ∧ (State.resetWith n).len r = 0 ∧ (State.resetWith n).limbsOf r = [] ∧
      (State.resetWith n).value r = 0 := by
  rw [len_eq, limbsOf_eq, value_eq, reg_resetWith]
  exact ⟨rfl, rfl, rfl, rfl⟩

/-- Settles O1: `State.reset` is the reset state of one capacity, and R32 holds for each. -/
theorem resetState : Obligations.ResetState := by
  intro s h
  obtain ⟨n, rfl⟩ : ∃ n, s = State.resetWith n := h.elim (fun h => ⟨2 ^ 32, h⟩) id
  exact ⟨resetWith_reads_zero n, rfl, rfl, rfl, rfl, word_statusReset⟩

/-! ### One step -/

/-- Everything a step can do: wait, reset, or take a command, whose word is illegal or whose command ends. -/
theorem step_cases (s : State) :
    ∃ t, step s = .next t ∧
      (t = s.idle ∨ (∃ rest, t = s.resetTo rest) ∨
        ∃ a rest, t = raise .illegalCommand (s.accept a rest) ∨ ∃ i, Ends i (s.accept a rest) t) := by
  match h : s.pending with
  | [] => exact ⟨_, step_of_no_act h, .inl rfl⟩
  | .rst :: rest => exact ⟨_, step_of_rst h, .inr (.inl ⟨rest, rfl⟩)⟩
  | .cmd w a :: rest =>
    rw [step_of_cmd h]
    obtain ⟨i, t, -, -, hrun, hends⟩ | ⟨-, hrun⟩ := runWord_cases w (s.accept a rest)
    · exact ⟨t, hrun, .inr (.inr ⟨a, rest, .inr ⟨i, hends⟩⟩)⟩
    · exact ⟨_, hrun, .inr (.inr ⟨a, rest, .inl rfl⟩)⟩

/-! ### The invariant (R22, R26, R27) -/

theorem inv_idle {s : State} (h : s.Inv) : s.idle.Inv := h

theorem inv_accept {s : State} (h : s.Inv) (a : Scalar) (rest : List HostEvent) : (s.accept a rest).Inv := h

/-- A reset keeps the parameter, so the state it leaves is the reset state of a capacity in the range. -/
theorem inv_resetTo {s : State} (h : s.Inv) (rest : List HostEvent) : (s.resetTo rest).Inv :=
  inv_resetWith (inv_limits h).1 (inv_limits h).2

/-- A response with an error code that KBC can give (R27), or none. -/
def State.RspLegal (s : State) : Prop := ∀ ρ, s.rsp = some ρ → ρ.err.legal = true

theorem rspLegal_of_rsp {s : State} {ρ : Response} (h : s.rsp = some ρ) (hl : ρ.err.legal = true) : s.RspLegal := by
  intro ρ' h'
  rw [h] at h'
  cases h'
  exact hl

theorem Ends.rspLegal {i : Instr} {s t : State} (h : Ends i s t) : t.RspLegal := by
  cases h with
  | failed e he => exact rspLegal_of_rsp rfl (by rcases he with rfl | rfl | rfl <;> rfl)
  | undefined => exact rspLegal_of_rsp rfl (legal_ofIndex _)
  | answered | wrote | wroteTwo | compared | readStatus | cleared => exact rspLegal_of_rsp rfl rfl

/-- A step goes on, keeps the invariant, and answers with a legal error code if it answers. -/
theorem step_keeps_inv {s : State} (h : s.Inv) : ∃ t, step s = .next t ∧ t.Inv ∧ t.RspLegal := by
  obtain ⟨t, hstep, ht⟩ := step_cases s
  refine ⟨t, hstep, ?_⟩
  obtain rfl | ⟨rest, rfl⟩ | ⟨a, rest, rfl | ⟨i, hends⟩⟩ := ht
  · exact ⟨inv_idle h, by simp [State.RspLegal]⟩
  · exact ⟨inv_resetTo h rest, by simp [State.RspLegal]⟩
  · exact ⟨inv_raise (inv_accept h a rest) rfl (by decide), rspLegal_of_rsp rfl rfl⟩
  · exact ⟨hends.inv (inv_accept h a rest), hends.rspLegal⟩

/-- Settles O4, by what the host does next: waiting, a reset, an illegal word and every end of a command keep the invariant. -/
theorem stepKeepsInvariant : Obligations.StepKeepsInvariant := by
  intro s h
  obtain ⟨t, hstep, hinv, -⟩ := step_keeps_inv h
  exact ⟨t, hstep, hinv⟩

/-! ### Error codes (R27, R242) -/

theorem Err.code_of_legal {e : Err} (h : e.legal = true) :
    e.code = 0 ∨ e.code = 1 ∨ e.code = 2 ∨ e.code = 4 ∨ e.code = 6 := by
  revert h
  cases e <;> decide

theorem Err.code_eq_zero_iff (e : Err) : e.code = 0 ↔ e = .none := by
  cases e <;> decide

theorem Status.wf_iff (t : Status) :
    t.wf = true ↔ t.lastErr.legal = true ∧ t.firstErr.legal = true ∧ (t.firstErr = .none ↔ t.fault = false) := by
  cases hf : t.fault <;> simp [Status.wf, hf, and_assoc]

/-- Settles O51: the fields of `STATUS` by the invariant, the response by what a step can answer. -/
theorem legalErrorCodes : Obligations.LegalErrorCodes := by
  intro s h
  obtain ⟨t, hstep, ⟨-, -, hst⟩, hrsp⟩ := step_keeps_inv h
  obtain ⟨hlast, hfirst, hfault⟩ := (Status.wf_iff _).1 hst
  refine ⟨t, hstep, fun ρ hρ => Err.code_of_legal (hrsp ρ hρ), ?_, (Err.code_eq_zero_iff _).trans hfault⟩
  rintro e (rfl | rfl)
  · exact Err.code_of_legal hlast
  · exact Err.code_of_legal hfirst

/-! ### `STATUS` across one command word (R26, R28, R252) -/

/-- Every end but the one of `CLRF` and the undefined one leaves a set `FAULT` and its `FIRSTERR`. -/
theorem Ends.fault_sticky {i : Instr} {s t : State} (h : Ends i s t) (hf : s.status.fault = true) (hc : i ≠ .clrf)
    (hd : ¬ InexactDiv3 i s) : t.status.fault = true ∧ t.status.firstErr = s.status.firstErr := by
  cases h with
  | failed e => exact ⟨rfl, if_pos hf⟩
  | cleared hi => exact absurd hi hc
  | undefined rd rs1 hi hu => exact absurd ⟨rd, rs1, hi, hu⟩ hd
  | answered | wrote | wroteTwo | compared | readStatus => exact ⟨hf, rfl⟩

/-- Settles O45: an illegal word is an exception, and an exception leaves a set `FAULT` and its `FIRSTERR`; so does every end. -/
theorem faultIsSticky : Obligations.FaultIsSticky := by
  intro s w hf hw
  obtain ⟨i, t, hdec, -, hrun, hends⟩ | ⟨-, hrun⟩ := runWord_cases w s
  · exact ⟨t, hrun, hends.fault_sticky hf (hw i hdec).1 (hw i hdec).2⟩
  · exact ⟨_, hrun, rfl, if_pos hf⟩

/-- Every end but the one of `CMP` leaves the flag. -/
theorem Ends.keeps_cmp {i : Instr} {s t : State} (h : Ends i s t) (hi : ∀ a b, i ≠ .cmp a b) : t.status.cmp = s.status.cmp := by
  cases h with
  | compared rs1 rs2 hcmp => exact absurd hcmp (hi rs1 rs2)
  | failed | answered | wrote | wroteTwo | readStatus | cleared | undefined => rfl

/-- Settles O46, by the end of the command, or the exception of an illegal word. -/
theorem onlyCmpWritesFlag : Obligations.OnlyCmpWritesFlag := by
  intro s w hw
  obtain ⟨i, t, hdec, -, hrun, hends⟩ | ⟨-, hrun⟩ := runWord_cases w s
  · exact ⟨t, hrun, hends.keeps_cmp fun a b hi => hw a b (hdec.trans (by rw [hi]))⟩
  · exact ⟨_, hrun, rfl⟩

/-! ### Registers a command writes (R29) -/

/-- Every end leaves a register that is no destination. -/
theorem Ends.keeps_reg {i : Instr} {s t : State} (h : Ends i s t) {r : Reg} (hr : r ∉ i.destinations) : t.reg r = s.reg r := by
  cases h with
  | wrote rd v hd =>
    rw [hd, List.mem_singleton] at hr
    rw [succeed_reg, reg_write_other _ _ hr]
  | wroteTwo rd rd2 v v2 hd =>
    obtain ⟨h1, h2⟩ : r ≠ rd ∧ r ≠ rd2 := by simpa [hd] using hr
    rw [succeed_reg, reg_write_other _ _ h2, reg_write_other _ _ h1]
  | undefined rd rs1 hi =>
    subst hi
    exact undefinedResult_reg_other rd s (List.mem_singleton.not.1 hr)
  | failed | answered | compared | readStatus | cleared => rfl

/-- Settles O48, by the end of the command. -/
theorem writesOnlyDestinations : Obligations.WritesOnlyDestinations := by
  intro i s
  obtain ⟨t, hexec, hends⟩ := exec_ends i s
  exact ⟨t, hexec, fun _ hr => hends.keeps_reg hr⟩

end Sys2Proof.Machine
end

section
/-! What a command reads: two states alike in what a command reads are acted on by it in one and the same way (10_state.md R28, R29;
60_exceptions.md R252). -/

namespace Sys2Proof.Machine

/-! ### What a command does to a state, apart from where its operands come from -/

/-- The ways in which a command that is no inexact `DIV3` acts on the state, with every value it puts there. -/
inductive Effect where
  | raises (e : Err)
  | answers (res : Scalar)
  | writes (rd : Reg) (v : Int)
  | writesTwo (rd : Reg) (v : Int) (rd2 : Reg) (v2 : Int)
  | setsFlag (c : Tri)
  | readsStatus
  | clearsRecord

/-- The state an effect leaves. -/
def Effect.apply : Effect → State → State
  | .raises e, s => raise e s
  | .answers res, s => succeed res s
  | .writes rd v, s => succeed 0 (s.write rd v)
  | .writesTwo rd v rd2 v2, s => succeed 0 ((s.write rd v).write rd2 v2)
  | .setsFlag c, s => succeed c.scalar (s.setCmp c)
  | .readsStatus, s => { s with rsp := some ⟨.none, s.status.word⟩ }
  | .clearsRecord, s => succeed 0 { s with status := { s.status with fault := false, firstErr := .none } }

/-- The registers an effect writes. -/
def Effect.destinations : Effect → List Reg
  | .writes rd _ => [rd]
  | .writesTwo rd _ rd2 _ => [rd, rd2]
  | .raises _ | .answers _ | .setsFlag _ | .readsStatus | .clearsRecord => []

theorem Effect.apply_sameRest (e : Effect) {s u : State} (h : SameRest s u) : SameRest (e.apply s) (e.apply u) := by
  cases e <;> exact h

/-- An effect makes the new `STATUS` of the old one alone. -/
theorem Effect.apply_status_congr (e : Effect) {s u : State} (h : u.status = s.status) : (e.apply u).status = (e.apply s).status := by
  cases e <;> simp [Effect.apply, h]

/-- Only reading `STATUS` makes the response depend on the state. -/
theorem Effect.apply_rsp_congr (e : Effect) {s u : State} (h : e = .readsStatus → u.status = s.status) :
    (e.apply u).rsp = (e.apply s).rsp := by
  cases e with
  | readsStatus => simp [Effect.apply, h rfl]
  | raises | answers | writes | writesTwo | setsFlag | clearsRecord => rfl

theorem Effect.apply_reg_other (e : Effect) (s : State) {r : Reg} (hr : r ∉ e.destinations) : (e.apply s).reg r = s.reg r := by
  cases e with
  | writes rd v => rw [Effect.apply, succeed_reg, reg_write_other _ _ (List.mem_singleton.not.1 hr)]
  | writesTwo rd v rd2 v2 =>
    obtain ⟨h1, h2⟩ : r ≠ rd ∧ r ≠ rd2 := by simpa [Effect.destinations] using hr
    rw [Effect.apply, succeed_reg, reg_write_other _ _ h2, reg_write_other _ _ h1]
  | raises | answers | setsFlag | readsStatus | clearsRecord => rfl

/-- What an effect puts in a register it writes does not depend on the state. -/
theorem Effect.apply_reg_destination (e : Effect) (s u : State) {r : Reg} (hr : r ∈ e.destinations) :
    (e.apply u).reg r = (e.apply s).reg r := by
  cases e with
  | writes rd v =>
    obtain rfl : r = rd := List.mem_singleton.1 hr
    simp only [Effect.apply, succeed_reg, reg_write_same]
  | writesTwo rd v rd2 v2 =>
    by_cases h2 : r = rd2
    · subst h2
      simp only [Effect.apply, succeed_reg, reg_write_same]
    · obtain rfl : r = rd := by simpa [Effect.destinations, h2] using hr
      simp only [Effect.apply, succeed_reg, reg_write_other _ _ h2, reg_write_same]
  | raises | answers | setsFlag | readsStatus | clearsRecord => cases hr

theorem Effect.apply_reg_congr (e : Effect) {s u : State} {r : Reg} (h : u.reg r = s.reg r) : (e.apply u).reg r = (e.apply s).reg r := by
  by_cases hr : r ∈ e.destinations
  · exact e.apply_reg_destination s u hr
  · rw [e.apply_reg_other u hr, e.apply_reg_other s hr, h]

/-! ### Two states acted on in the same way -/

/-- The results `a` from `s` and `b` from `u` are one effect of command `i`, which writes all destinations of R29 or none, and reads
`STATUS` for `RDST` alone. -/
def SameEffect (i : Instr) (s u : State) (a b : Result) : Prop :=
  ∃ e : Effect, (e.destinations = i.destinations ∨ e.destinations = []) ∧ (e = .readsStatus → i = .rdst) ∧
    a = .next (e.apply s) ∧ b = .next (e.apply u)

section
variable {i : Instr} {s u : State}

theorem SameEffect.throwErr (e : Err) : SameEffect i s u (throwErr e s) (throwErr e u) :=
  ⟨.raises e, .inr rfl, nofun, rfl, rfl⟩

theorem SameEffect.answer (res : Scalar) : SameEffect i s u (answer res s) (answer res u) :=
  ⟨.answers res, .inr rfl, nofun, rfl, rfl⟩

/-- The capacity check looks at the parameter only (R243). -/
theorem fits_congr (h : u.cfg = s.cfg) (v : Int) : fits u v = fits s v := by rw [fits, fits, h]

theorem SameEffect.commit (hcfg : u.cfg = s.cfg) {rd : Reg} (hd : i.destinations = [rd]) (v : Int) :
    SameEffect i s u (commit rd v s) (commit rd v u) := by
  rw [Machine.commit, Machine.commit, fits_congr hcfg]
  split
  · exact ⟨.writes rd v, .inl hd.symm, nofun, rfl, rfl⟩
  · exact .throwErr _

theorem SameEffect.commitTwo (hcfg : u.cfg = s.cfg) {rd rd2 : Reg} (hd : i.destinations = [rd, rd2]) (v v2 : Int) :
    SameEffect i s u (commitTwo rd v rd2 v2 s) (commitTwo rd v rd2 v2 u) := by
  rw [Machine.commitTwo, Machine.commitTwo, fits_congr hcfg, fits_congr hcfg]
  split
  · exact ⟨.writesTwo rd v rd2 v2, .inl hd.symm, nofun, rfl, rfl⟩
  · exact .throwErr _

/-- Two commands that make the same test go the same way. -/
theorem SameEffect.ite {p : Prop} [Decidable p] {a a' b b' : Result} (h : SameEffect i s u a b) (h' : SameEffect i s u a' b') :
    SameEffect i s u (if p then a else a') (if p then b else b') := by
  split
  · exact h
  · exact h'

end

/-! ### What a command reads (R29, R73) -/

/-- `u` has the parameter and the scalar of `s`, and its content in the registers of `rs`. -/
structure ReadsAlike (rs : List Reg) (s u : State) : Prop where
  cfg : u.cfg = s.cfg
  arg : u.arg = s.arg
  reg : ∀ r ∈ rs, u.reg r = s.reg r

section
variable {q r r' : Reg} {rs : List Reg} {s u : State}

theorem ReadsAlike.fst (h : ReadsAlike (r :: rs) s u) : u.reg r = s.reg r := h.reg r (by simp)

theorem ReadsAlike.snd (h : ReadsAlike (q :: r :: rs) s u) : u.reg r = s.reg r := h.reg r (by simp)

theorem ReadsAlike.trd (h : ReadsAlike (q :: r' :: r :: rs) s u) : u.reg r = s.reg r := h.reg r (by simp)

theorem ReadsAlike.scalar (h : ReadsAlike rs s u) : u.scalar = s.scalar := by rw [State.scalar, State.scalar, h.arg]

end

/-- A command acts in the same way on two states alike in its sources of R29, the scalar and the parameter: each operand is read through
these, and every end of a command puts down values it was given. -/
theorem exec_sameEffect {i : Instr} {s u : State} (h : ReadsAlike i.sources s u) (hd : ¬ InexactDiv3 i s) :
    SameEffect i s u (exec i s) (exec i u) := by
  cases i with
  | nop => exact .answer 0
  | clr rd => exact .commit h.cfg rfl 0
  | copy rd rs1 =>
    simp only [exec, execCopy, value_eq, h.fst]
    exact .commit h.cfg rfl _
  | ldi rd =>
    simp only [exec, execLdi, h.scalar]
    exact .commit h.cfg rfl _
  | pushl rd =>
    simp only [exec, execPushl, value_eq, h.scalar, h.fst]
    exact .commit h.cfg rfl _
  | neg rd rs1 =>
    simp only [exec, execNeg, value_eq, h.fst]
    exact .commit h.cfg rfl _
  | rdl rs1 =>
    simp only [exec, execRdl, State.limbRead, limbsOf_eq, h.scalar, h.fst]
    split
    · exact .throwErr _
    · exact .answer _
  | rdlen rs1 =>
    simp only [exec, execRdlen, len_eq, h.fst]
    exact .answer _
  | rdsgn rs1 =>
    simp only [exec, execRdsgn, h.fst]
    exact .answer _
  | rdst => exact ⟨.readsStatus, .inl rfl, fun _ => rfl, rfl, rfl⟩
  | clrf => exact ⟨.clearsRecord, .inl rfl, nofun, rfl, rfl⟩
  | bitlen rs1 =>
    simp only [exec, execBitlen, limbsOf_eq, h.fst]
    exact .answer _
  | add rd rs1 rs2 =>
    simp only [exec, execAdd, value_eq, h.fst, h.snd]
    exact .commit h.cfg rfl _
  | sub rd rs1 rs2 =>
    simp only [exec, execSub, value_eq, h.fst, h.snd]
    exact .commit h.cfg rfl _
  | cmp rs1 rs2 =>
    simp only [exec, execCmp, h.fst, h.snd]
    exact ⟨.setsFlag _, .inl rfl, nofun, rfl, rfl⟩
  | shr rd rs1 =>
    simp only [exec, execShr, value_eq, limbsOf_eq, h.scalar, h.fst]
    exact .commit h.cfg rfl _
  | div3 rd rs1 =>
    have hexact : (s.reg rs1).toInt % 3 = 0 := by
      by_contra hne
      exact hd ⟨rd, rs1, rfl, mt Int.emod_eq_zero_of_dvd hne⟩
    simp only [exec, execDiv3, value_eq, limbsOf_eq, h.fst, hexact]
    exact .commit h.cfg rfl _
  | pow2 rd =>
    simp only [exec, execPow2, h.scalar, h.cfg]
    exact .ite (.throwErr _) (.commit h.cfg rfl _)
  | muls rd rs1 rs2 =>
    simp only [exec, execMuls, value_eq, limbsOf_eq, h.fst, h.snd]
    exact .commit h.cfg rfl _
  | mulk rd rs1 rs2 =>
    simp only [exec, execMulk, value_eq, limbsOf_eq, h.fst, h.snd]
    exact .commit h.cfg rfl _
  | mult3 rd rs1 rs2 =>
    simp only [exec, execMult3, value_eq, len_eq, h.fst, h.snd]
    exact .ite (.commit h.cfg rfl _) (.commit h.cfg rfl _)
  | div rd rd2 rs1 rs2 =>
    simp only [exec, execDiv, value_eq, h.fst, h.snd]
    exact .ite (.throwErr _) (.commitTwo h.cfg rfl _ _)
  | mod rd rs1 rs2 =>
    simp only [exec, execMod, value_eq, h.fst, h.snd]
    exact .ite (.throwErr _) (.commit h.cfg rfl _)
  | montmul rd rs1 rs2 rs3 =>
    simp only [exec, execMontmul, value_eq, h.fst, h.snd, h.trd]
    exact .ite (.throwErr _) (.ite (.throwErr _) (.ite (.throwErr _) (.commit h.cfg rfl _)))
  | modexp rd rd2 rs1 rs2 rs3 =>
    simp only [exec, execModexp, value_eq, h.fst, h.snd, h.trd]
    exact .ite (.throwErr _) (.ite (.throwErr _) (.commitTwo h.cfg rfl _ _))
  | gcd rd rs1 rs2 =>
    simp only [exec, execGcd, value_eq, h.fst, h.snd]
    exact .commit h.cfg rfl _

/-! ### Two runs -/

/-- Settles O47: a state with another `STATUS` is alike in everything a command reads, and only the effect of `RDST` reads `STATUS`. -/
theorem noCommandReadsStatus : Obligations.NoCommandReadsStatus := by
  intro i s σ hi hd
  have halike : ReadsAlike i.sources s { s with status := σ } := ⟨rfl, rfl, fun _ _ => rfl⟩
  obtain ⟨e, -, hread, hs, hu⟩ := exec_sameEffect halike hd
  exact ⟨_, _, hs, hu, fun r => e.apply_reg_congr rfl, e.apply_rsp_congr fun he => absurd (hread he) hi,
    e.apply_sameRest ⟨rfl, rfl, rfl, rfl⟩⟩

/-- Settles O49: both runs are one effect, which writes all destinations with values of its own, or no register. -/
theorem readsOnlySources : Obligations.ReadsOnlySources := by
  intro i s regs hregs hd
  have halike : ReadsAlike i.sources s { s with regs := regs } := ⟨rfl, rfl, hregs⟩
  obtain ⟨e, hdest, -, hs, hu⟩ := exec_sameEffect halike hd
  refine ⟨_, _, hs, hu, e.apply_status_congr rfl, e.apply_rsp_congr fun _ => rfl, e.apply_sameRest ⟨rfl, rfl, rfl, rfl⟩, ?_⟩
  obtain hall | hnone := hdest
  · exact .inl fun r hr => e.apply_reg_destination _ _ (hall ▸ hr)
  · exact .inr fun r => ⟨e.apply_reg_other _ (by simp [hnone]), e.apply_reg_other _ (by simp [hnone])⟩

end Sys2Proof.Machine
end

section
/-! One response for each presented command, and none when nothing is presented (20_memory.md R60; 70_reset_and_hazards.md R271). -/

namespace Sys2Proof.Machine

/-- A command word, legal or not, is answered, and the host's list stays as it was after the acceptance. -/
theorem runWord_answers (w : CmdWord) (s : State) : ∃ t ρ, runWord w s = .next t ∧ t.pending = s.pending ∧ t.rsp = some ρ := by
  obtain ⟨_, t, -, -, hrun, hends⟩ | ⟨-, hrun⟩ := runWord_cases w s
  · obtain ⟨-, -, hpending, ρ, hrsp⟩ := hends.rest
    exact ⟨t, ρ, hrun, hpending, hrsp⟩
  · exact ⟨_, _, hrun, raise_pending _ s, raise_rsp _ s⟩

/-- Settles O43: the acceptance takes the command off the list, the run of its word answers; with nothing presented the step is idle. -/
theorem oneResponsePerCommand : Obligations.OneResponsePerCommand := by
  refine ⟨fun s w a rest h => ?_, fun _ h => step_of_no_act h⟩
  rw [step_of_cmd h]
  exact runWord_answers w (s.accept a rest)

end Sys2Proof.Machine
end

section
/-! The encoding (30_encoding.md R71 to R77, R81): the encoder and the decoder are inverse to each other, the decoder accepts the words
that are not illegal, and the mask of a format tests what R72 says. -/

namespace Sys2Proof

/-! ### What the decoder answers, by the fields of the word (R77) -/

/-- A word that passes the mask of its opcode is refused for equal destinations only (R76). -/
theorem decode_of_unusedZero {w : CmdWord} {o : Opcode} (hop : o.byte = (Fields.ofWord w).op)
    (hu : (Fields.ofWord w).UnusedZero o.format.uses) :
    decode w = if o.format.twoDestinations = true ∧ (Fields.ofWord w).rd = (Fields.ofWord w).rd2 then .error .sameDestination
      else .ok (o.command (Fields.ofWord w)) := by
  obtain ⟨-, hno⟩ | ⟨p, hp, h⟩ := decode_cases w
  · exact absurd hop (hno o)
  · obtain rfl := Opcode.byte_inj (hop.trans hp.symm)
    obtain ⟨-, hbad⟩ | ⟨hdec, -, hsame⟩ | ⟨hdec, -, hdiff⟩ := h
    · exact absurd hu hbad
    · rw [hdec, if_pos hsame]
    · rw [hdec, if_neg hdiff]

/-- A command is read from a word by the opcode of its `op` field, and only when the tests of R77 pass. -/
theorem fields_of_decode_eq_ok {w : CmdWord} {i : Instr} (h : decode w = .ok i) :
    i.opcode.byte = (Fields.ofWord w).op ∧ (Fields.ofWord w).UnusedZero i.opcode.format.uses ∧
      ¬ (i.opcode.format.twoDestinations = true ∧ (Fields.ofWord w).rd = (Fields.ofWord w).rd2) ∧
      i = i.opcode.command (Fields.ofWord w) := by
  obtain ⟨hdec, -⟩ | ⟨o, hop, ⟨hdec, -⟩ | ⟨hdec, -⟩ | ⟨hdec, hu, hdiff⟩⟩ := decode_cases w <;> rw [hdec] at h <;> cases h
  rw [Opcode.opcode_command]
  exact ⟨hop, hu, hdiff, rfl⟩

/-- Equal destinations are looked at only after the mask has passed (R77). -/
theorem unusedZero_of_decode_eq_sameDestination {w : CmdWord} {o : Opcode} (hop : o.byte = (Fields.ofWord w).op)
    (h : decode w = .error .sameDestination) : (Fields.ofWord w).UnusedZero o.format.uses := by
  obtain ⟨hdec, -⟩ | ⟨p, hp, ⟨hdec, -⟩ | ⟨-, hu, -⟩ | ⟨hdec, -⟩⟩ := decode_cases w
  · rw [hdec] at h; cases h
  · rw [hdec] at h; cases h
  · rwa [Opcode.byte_inj (hop.trans hp.symm)]
  · rw [hdec] at h; cases h

/-! ### The encoder (R71, R72, R76) -/

theorem regOfBits_inj {a b : BitVec 4} : regOfBits a = regOfBits b ↔ a = b :=
  ⟨fun h => by rw [← regBits_regOfBits a, h, regBits_regOfBits], fun h => by rw [h]⟩

/-- The command an opcode makes of some fields is well formed unless R76 refuses the fields. -/
theorem wf_command (o : Opcode) (f : Fields) :
    (o.command f).wf = true ↔ ¬ (o.format.twoDestinations = true ∧ f.rd = f.rd2) := by
  cases o with
  | div | modexp => simp [Opcode.command, Instr.wf, Opcode.format, Format.twoDestinations, regOfBits_inj]
  | _ => simp [Opcode.command, Instr.wf, Opcode.format, Format.twoDestinations]

/-- The word of the command that an opcode makes of some fields has these fields, if those its format does not use are zero. -/
theorem encode_command {o : Opcode} {f : Fields} (hop : o.byte = f.op) (hu : f.UnusedZero o.format.uses) :
    encode (o.command f) = f.toWord := by
  obtain ⟨op, rd, rs1, rs2, rs3, rd2, zero⟩ := f
  obtain ⟨hrd, hrs1, hrs2, hrs3, hrd2, hzero⟩ := hu
  cases o <;> simp_all [Opcode.command, encode, wordOf, Opcode.format, Format.uses]

/-- The word of every command passes the mask of its format (R72). -/
theorem encode_masked : ∀ i : Instr, Laws.EncodeMasked.Statement i
  | .nop => Laws.EncodeMasked.nop
  | .clr rd => Laws.EncodeMasked.clr rd
  | .copy rd rs1 => Laws.EncodeMasked.copy rd rs1
  | .ldi rd => Laws.EncodeMasked.ldi rd
  | .pushl rd => Laws.EncodeMasked.pushl rd
  | .neg rd rs1 => Laws.EncodeMasked.neg rd rs1
  | .rdl rs1 => Laws.EncodeMasked.rdl rs1
  | .rdlen rs1 => Laws.EncodeMasked.rdlen rs1
  | .rdsgn rs1 => Laws.EncodeMasked.rdsgn rs1
  | .rdst => Laws.EncodeMasked.rdst
  | .clrf => Laws.EncodeMasked.clrf
  | .bitlen rs1 => Laws.EncodeMasked.bitlen rs1
  | .add rd rs1 rs2 => Laws.EncodeMasked.add rd rs1 rs2
  | .sub rd rs1 rs2 => Laws.EncodeMasked.sub rd rs1 rs2
  | .cmp rs1 rs2 => Laws.EncodeMasked.cmp rs1 rs2
  | .shr rd rs1 => Laws.EncodeMasked.shr rd rs1
  | .div3 rd rs1 => Laws.EncodeMasked.div3 rd rs1
  | .pow2 rd => Laws.EncodeMasked.pow2 rd
  | .muls rd rs1 rs2 => Laws.EncodeMasked.muls rd rs1 rs2
  | .mulk rd rs1 rs2 => Laws.EncodeMasked.mulk rd rs1 rs2
  | .mult3 rd rs1 rs2 => Laws.EncodeMasked.mult3 rd rs1 rs2
  | .div rd rd2 rs1 rs2 => Laws.EncodeMasked.div rd rd2 rs1 rs2
  | .mod rd rs1 rs2 => Laws.EncodeMasked.mod rd rs1 rs2
  | .montmul rd rs1 rs2 rs3 => Laws.EncodeMasked.montmul rd rs1 rs2 rs3
  | .modexp rd rd2 rs1 rs2 rs3 => Laws.EncodeMasked.modexp rd rd2 rs1 rs2 rs3
  | .gcd rd rs1 rs2 => Laws.EncodeMasked.gcd rd rs1 rs2

/-- The operands of every command stand in the fields of its word (R71, R73). -/
theorem command_ofWord_encode (i : Instr) : i.opcode.command (Fields.ofWord (encode i)) = i := by
  cases i <;> simp [encode, wordOf, Instr.opcode, Opcode.command]

/-- Settles O8: the word passes the mask, its fields make the command again, and it is not refused as the command is well formed. -/
theorem decodeOfEncode : Obligations.DecodeOfEncode := by
  intro i hwf
  obtain ⟨hop, hu⟩ := (and_mask_eq_iff _ _ _).1 (encode_masked i)
  rw [← command_ofWord_encode i, wf_command] at hwf
  rw [decode_of_unusedZero hop.symm hu, if_neg hwf, command_ofWord_encode]

/-- Settles O9: the decoded command is made of the fields of the word, and a word is given by its fields. -/
theorem encodeOfDecode : Obligations.EncodeOfDecode := by
  intro w i h
  obtain ⟨hop, hu, hdiff, hi⟩ := fields_of_decode_eq_ok h
  constructor
  · rw [hi]
    exact (wf_command _ _).2 hdiff
  · rw [hi, encode_command hop hu, Fields.toWord_ofWord]

/-! ### Illegal words and masks (R72, R75, R76) -/

/-- For a word of an opcode of the table two of the grounds of R75 are left. -/
theorem illegal_iff_of_byte {w : CmdWord} {o : Opcode} (hop : o.byte = (Fields.ofWord w).op) :
    Illegal w ↔ ¬ (Fields.ofWord w).UnusedZero o.format.uses ∨
      o.format.twoDestinations = true ∧ (Fields.ofWord w).rd = (Fields.ofWord w).rd2 := by
  rw [Opcode.twoDestinations_iff]
  constructor
  · rintro (hno | ⟨p, hp, h⟩)
    · exact absurd hop (hno o)
    · rwa [Opcode.byte_inj (hop.trans hp.symm)]
  · exact fun h => .inr ⟨o, hop, h⟩

/-- A refused word settles both sides of R75 at once. -/
theorem decodes_iff_of_error {w : CmdWord} {e : DecodeError} (hdec : decode w = .error e) (hill : Illegal w) :
    (∃ i, decode w = .ok i) ↔ ¬ Illegal w :=
  iff_of_false (by simp [hdec]) (not_not.2 hill)

/-- Settles O7, by what the decoder can do: each of its refusals is a ground of R75, and a word it accepts meets none. -/
theorem decodesExactlyLegalWords : Obligations.DecodesExactlyLegalWords := by
  intro w
  obtain ⟨hdec, hno⟩ | ⟨o, hop, ⟨hdec, hbad⟩ | ⟨hdec, -, hsame⟩ | ⟨hdec, hu, hdiff⟩⟩ := decode_cases w
  · exact decodes_iff_of_error hdec (.inl hno)
  · exact decodes_iff_of_error hdec ((illegal_iff_of_byte hop).2 (.inl hbad))
  · exact decodes_iff_of_error hdec ((illegal_iff_of_byte hop).2 (.inr hsame))
  · refine iff_of_true ⟨_, hdec⟩ ?_
    rw [illegal_iff_of_byte hop]
    exact not_or.2 ⟨not_not.2 hu, hdiff⟩

/-- Settles O11: the first equivalence is what a mask tests; a word that passes the mask is a command of the opcode unless R76 refuses
it, and the decoder answers neither for a word that does not pass. -/
theorem formatMasks : Obligations.FormatMasks := by
  intro w o
  refine ⟨and_mask_eq_iff w _ _, ?_⟩
  rw [and_mask_eq_iff, ← Opcode.twoDestinations_iff]
  constructor
  · rintro ⟨hop, hu⟩
    rw [decode_of_unusedZero hop.symm hu]
    split
    · rename_i hsame
      exact .inr ⟨hsame.1, hop, rfl⟩
    · exact .inl ⟨_, rfl, Opcode.opcode_command o _⟩
  · rintro (⟨i, hdec, rfl⟩ | ⟨-, hop, hdec⟩)
    · obtain ⟨hop, hu, -⟩ := fields_of_decode_eq_ok hdec
      exact ⟨hop.symm, hu⟩
    · exact ⟨hop, unusedZero_of_decode_eq_sameDestination hop.symm hdec⟩

/-- Settles O10: the decoder evaluates on each word of R81. -/
theorem encodingExamples : Obligations.EncodingExamples := by
  unfold Obligations.EncodingExamples
  decide

end Sys2Proof
end

section
/-! The port and the decoder (30_encoding.md R70, R73, R75, R77, R78; 40_data_movement.md R111): what a step makes of the presented word,
legal or not, the scalar operand and the scalar result of a command. -/

namespace Sys2Proof.Machine

/-! ### The presented word (R70, R77) -/

theorem runWord_of_decode {w : CmdWord} {i : Instr} (h : decode w = .ok i) (s : State) : runWord w s = exec i s := by
  simp only [runWord, h]

theorem step_of_decode {s : State} {w : CmdWord} {a : Scalar} {rest : List HostEvent} {i : Instr} (h : s.pending = .cmd w a :: rest)
    (hdec : decode w = .ok i) : step s = exec i (s.accept a rest) := by
  rw [step_of_cmd h, runWord_of_decode hdec]

/-- A word given as its number is the word. -/
theorem withFetchWord_toNat (s : State) (w : CmdWord) : s.withFetchWord 32 w.toNat = s.present w 0 := by
  rw [State.withFetchWord, Nat.mod_eq_of_lt w.isLt, BitVec.ofNat_toNat, BitVec.setWidth_eq]

/-- Settles O5: a step accepts the presented word and runs it. -/
theorem stepRunsDecodedCommand : Obligations.StepRunsDecodedCommand := by
  refine ⟨fun _ _ _ _ _ h hdec => step_of_decode h hdec, fun _ _ _ _ h => step_of_cmd h, fun s w i hdec => ?_⟩
  rw [withFetchWord_toNat]
  exact step_of_decode rfl hdec

/-- Settles O6: the decoder reads no command from an illegal word, and then the port raises the exception. -/
theorem illegalWordRaises : Obligations.IllegalWordRaises := by
  refine ⟨rfl, fun s w hill => ?_⟩
  obtain ⟨i, _, hdec, -⟩ | ⟨-, hrun⟩ := runWord_cases w s
  · exact absurd hill ((decodesExactlyLegalWords w).1 ⟨i, hdec⟩)
  · rw [hrun]
    exact throwErr_raised _ s

/-! ### The scalar operand (R73) -/

/-- The state with another scalar at the port. -/
def State.setArg (s : State) (a : Scalar) : State := { s with arg := a }

@[simp] theorem setArg_reg (s : State) (a : Scalar) (r : Reg) : (s.setArg a).reg r = s.reg r := rfl
@[simp] theorem setArg_cfg (s : State) (a : Scalar) : (s.setArg a).cfg = s.cfg := rfl

theorem Effect.apply_setArg (e : Effect) (s : State) (a : Scalar) : e.apply (s.setArg a) = (e.apply s).setArg a := by
  cases e <;> rfl

/-- A command that does not use `arg` acts in the same way on two states that differ in the scalar alone: it reads the same operands, and
makes the same tests. -/
theorem exec_setArg_sameEffect {i : Instr} {s : State} (a : Scalar) (hi : i.usesArg = false) (hd : ¬ InexactDiv3 i s) :
    SameEffect i s (s.setArg a) (exec i s) (exec i (s.setArg a)) := by
  have hcfg := setArg_cfg s a
  cases i with
  | ldi | pushl | rdl | shr | pow2 => cases hi
  | nop | rdlen | rdsgn | bitlen => exact .answer _
  | rdst => exact ⟨.readsStatus, .inl rfl, fun _ => rfl, rfl, rfl⟩
  | clrf => exact ⟨.clearsRecord, .inl rfl, nofun, rfl, rfl⟩
  | cmp => exact ⟨.setsFlag _, .inl rfl, nofun, rfl, rfl⟩
  | clr | copy | neg | add | sub | muls | mulk | gcd =>
    simp only [exec, execClr, execCopy, execNeg, execAdd, execSub, execMuls, execMulk, execGcd, value_eq, limbsOf_eq, setArg_reg]
    exact .commit hcfg rfl _
  | div3 rd rs1 =>
    have hexact : (s.reg rs1).toInt % 3 = 0 := by
      by_contra hne
      exact hd ⟨rd, rs1, rfl, mt Int.emod_eq_zero_of_dvd hne⟩
    simp only [exec, execDiv3, value_eq, limbsOf_eq, setArg_reg, hexact]
    exact .commit hcfg rfl _
  | mult3 rd rs1 rs2 =>
    simp only [exec, execMult3, value_eq, len_eq, setArg_reg]
    exact .ite (.commit hcfg rfl _) (.commit hcfg rfl _)
  | div rd rd2 rs1 rs2 =>
    simp only [exec, execDiv, value_eq, setArg_reg]
    exact .ite (.throwErr _) (.commitTwo hcfg rfl _ _)
  | mod rd rs1 rs2 =>
    simp only [exec, execMod, value_eq, setArg_reg]
    exact .ite (.throwErr _) (.commit hcfg rfl _)
  | montmul rd rs1 rs2 rs3 =>
    simp only [exec, execMontmul, value_eq, setArg_reg]
    exact .ite (.throwErr _) (.ite (.throwErr _) (.ite (.throwErr _) (.commit hcfg rfl _)))
  | modexp rd rd2 rs1 rs2 rs3 =>
    simp only [exec, execModexp, value_eq, setArg_reg]
    exact .ite (.throwErr _) (.ite (.throwErr _) (.commitTwo hcfg rfl _ _))

/-- Settles O53: both runs are one effect, and an effect leaves the scalar alone. -/
theorem unusedArgIgnored : Obligations.UnusedArgIgnored := by
  intro i s a hi hd
  obtain ⟨e, -, -, hs, hu⟩ := exec_setArg_sameEffect a hi hd
  exact ⟨_, hs, hu.trans (by rw [e.apply_setArg]; rfl)⟩

/-! ### The scalar result (R73, R78) -/

/-- Every end but the undefined one leaves a response with `res = 0`, or is a success of a command that sets `res`. -/
theorem Ends.res_zero_or {i : Instr} {s t : State} (h : Ends i s t) (hd : ¬ InexactDiv3 i s) :
    ∃ ρ, t.rsp = some ρ ∧ (ρ.res = 0 ∨ i.setsRes = true ∧ ρ.err = .none) := by
  cases h with
  | failed | wrote | wroteTwo | cleared => exact ⟨_, rfl, .inl rfl⟩
  | answered v _ hv => exact ⟨_, rfl, hv.elim (fun h => .inr ⟨h, rfl⟩) .inl⟩
  | compared _ _ hi | readStatus hi => exact ⟨_, rfl, .inr ⟨by rw [hi]; rfl, rfl⟩⟩
  | undefined rd rs1 hi hu => exact absurd ⟨rd, rs1, hi, hu⟩ hd

/-- Settles O54, by the end of the command. -/
theorem resZeroUnlessSet : Obligations.ResZeroUnlessSet := by
  intro i s hd
  obtain ⟨t, hexec, hends⟩ := exec_ends i s
  obtain ⟨ρ, hrsp, hres⟩ := hends.res_zero_or hd
  refine ⟨t, ρ, hexec, hrsp, fun h => hres.resolve_right ?_⟩
  rintro ⟨hset, herr⟩
  simp [hset, herr] at h

end Sys2Proof.Machine
end

section
/-! The commands of `LDN` load any integer that fits (30_encoding.md R80): `CLR`, one `PUSHL` for each limb from the most significant, and
`NEG` for a negative value. -/

namespace Sys2Proof.Machine

/-! ### Runs of steps -/

theorem run_succ {s t : State} (h : step s = .next t) (k : Nat) : Host.Core.run core (k + 1) s = Host.Core.run core k t := by
  have hcore : core.step s = .next t := h
  simp only [Host.Core.run, hcore]

theorem run_add {s t : State} {k : Nat} (h : Host.Core.run core k s = .next t) (j : Nat) :
    Host.Core.run core (k + j) s = Host.Core.run core j t := by
  induction k generalizing s with
  | zero => cases h; rw [Nat.zero_add]
  | succ k ih =>
    obtain ⟨u, hstep, -⟩ := step_cases s
    rw [run_succ hstep] at h
    rw [Nat.add_right_comm, run_succ hstep, ih h]

/-! ### One register loaded -/

/-- `t` is `s` but for `STATUS` and the port, and for register `rd`. -/
structure AlikeBut (rd : Reg) (s t : State) : Prop where
  cfg : t.cfg = s.cfg
  reg : ∀ r, r ≠ rd → t.reg r = s.reg r

/-- In `t`, reached from `s`, register `rd` is loaded with `v`, with success, and the host has `es` yet to present. -/
structure Loaded (rd : Reg) (v : Int) (es : List HostEvent) (s t : State) : Prop extends AlikeBut rd s t where
  content : t.reg rd = BigInt.ofInt v
  pending : t.pending = es
  rsp : t.rsp = some ⟨.none, 0⟩

theorem Loaded.value {rd : Reg} {v : Int} {es : List HostEvent} {s t : State} (h : Loaded rd v es s t) : t.value rd = v := by
  rw [value_eq, h.content, BigInt.toInt_ofInt]

/-- A presented command that ends with a write of `v` to `rd` loads it. -/
theorem step_loads {s t : State} {rd : Reg} {v : Int} {i : Instr} {a : Scalar} {es : List HostEvent} (ht : AlikeBut rd s t)
    (hp : t.pending = .cmd (encode i) a :: es) (hwf : i.wf = true)
    (hexec : exec i (t.accept a es) = commit rd v (t.accept a es)) (hv : Fits s v) :
    ∃ u, step t = .next u ∧ Loaded rd v es s u := by
  have hfits : Fits (t.accept a es) v := by rwa [Fits, accept_cfg, ht.cfg]
  obtain ⟨u, hu, ⟨-, -, hother, -, hrsp, hcfg, -, hpending, -⟩, hcontent⟩ := commit_wrote rd hfits
  refine ⟨u, ?_, ⟨hcfg.trans ht.cfg, fun r hr => (hother r hr).trans (ht.reg r hr)⟩, hcontent, hpending, hrsp⟩
  rw [step_of_decode hp (decodeOfEncode i hwf), hexec, hu]

/-! ### The pushed limbs (R104) -/

/-- What the host presents to push the limbs of `L`. -/
def pushes (rd : Reg) (L : List Limb) : List HostEvent := L.map fun d => .cmd (encode (.pushl rd)) d

theorem pushLimb_natCast (m a : Nat) : pushLimb m a = ((m * 2 ^ 64 + a : Nat) : Int) := by
  simp [pushLimb]

/-- Pushing a limb appends it to the magnitude: the value so far and the limbs to come make the same number. -/
theorem val_push (m : Nat) (d : Limb) (L : List Limb) :
    (m * 2 ^ 64 + d.toNat) * (2 ^ 64) ^ L.length + val L = m * (2 ^ 64) ^ (d :: L).length + val (d :: L) := by
  rw [val, List.length_cons]
  ring

/-- Pushing the limbs of `L` onto a loaded magnitude loads the magnitude with these limbs appended, if that fits. -/
theorem run_pushes {s : State} {rd : Reg} {es : List HostEvent} (L : List Limb) {m : Nat} {t : State}
    (ht : Loaded rd m (pushes rd L ++ es) s t) (hfit : Fits s (m * (2 ^ 64) ^ L.length + val L : Nat)) :
    ∃ u, Host.Core.run core L.length t = .next u ∧ Loaded rd (m * (2 ^ 64) ^ L.length + val L : Nat) es s u := by
  induction L generalizing m t with
  | nil => exact ⟨t, rfl, by simpa [pushes, val] using ht⟩
  | cons d L ih =>
    rw [← val_push] at hfit ⊢
    have hd : Fits s (m * 2 ^ 64 + d.toNat : Nat) := by
      refine fits_of_natAbs_le hfit ?_
      rw [Int.natAbs_natCast, Int.natAbs_natCast]
      exact (Nat.le_mul_of_pos_right _ (by positivity)).trans (Nat.le_add_right _ _)
    have hexec : exec (.pushl rd) (t.accept d (pushes rd L ++ es)) =
        commit rd (m * 2 ^ 64 + d.toNat : Nat) (t.accept d (pushes rd L ++ es)) := by
      rw [← pushLimb_natCast, ← ht.value]
      rfl
    obtain ⟨u, hstep, hu⟩ := step_loads ht.toAlikeBut ht.pending rfl hexec hd
    rw [List.length_cons, run_succ hstep]
    exact ih hu hfit

/-! ### `LDN` (R80) -/

/-- `CLR` and the pushes load the magnitude. -/
theorem run_clr_pushes {s t : State} {rd : Reg} {es : List HostEvent} {m : Nat} (ht : AlikeBut rd s t)
    (hp : t.pending = .cmd (encode (.clr rd)) 0 :: (pushes rd (toLimbs m) ++ es)) (hfit : Fits s m) :
    ∃ u, Host.Core.run core ((toLimbs m).length + 1) t = .next u ∧ Loaded rd m es s u := by
  obtain ⟨u, hstep, hu⟩ := step_loads ht hp rfl rfl (fits_zero s)
  rw [run_succ hstep]
  simpa using run_pushes (toLimbs m) (m := 0) hu (by simpa using hfit)

/-- The host's list with `LDN` put before it. -/
theorem presentPseudo_ldn_pending (s : State) (rd : Reg) (v : Int) :
    (s.presentPseudo (.ldn rd v)).pending =
      .cmd (encode (.clr rd)) 0 :: (pushes rd (toLimbs v.natAbs) ++
        ((if v < 0 then [.cmd (encode (.neg rd rd)) 0] else []) ++ s.pending)) := by
  by_cases hv : v < 0 <;> simp [State.presentPseudo, Pseudo.expand, pushes, hv]

theorem length_ldn (rd : Reg) (v : Int) :
    (Pseudo.ldn rd v).expand.length = (toLimbs v.natAbs).length + 1 + if v < 0 then 1 else 0 := by
  by_cases hv : v < 0 <;> simp [Pseudo.expand, hv]

/-- Settles O23: `CLR` and the pushes load the magnitude, and for a negative value `NEG` loads its negation. -/
theorem ldnLoadsInteger : Obligations.LdnLoadsInteger := by
  intro s rd v _ hfit
  have hmag : Fits s (v.natAbs : Int) := fits_of_natAbs_le hfit (Int.natAbs_natCast _).le
  obtain ⟨u, hrun, hu⟩ := run_clr_pushes ⟨rfl, fun _ _ => rfl⟩ (presentPseudo_ldn_pending s rd v) hmag
  rw [length_ldn, run_add hrun]
  by_cases hv : v < 0
  · rw [if_pos hv] at hu ⊢
    have hexec : exec (.neg rd rd) (u.accept 0 s.pending) = commit rd v (u.accept 0 s.pending) := by
      have hneg : -u.value rd = v := by rw [hu.value]; omega
      rw [← hneg]
      rfl
    obtain ⟨t, hstep, ht⟩ := step_loads hu.toAlikeBut hu.pending rfl hexec hfit
    exact ⟨t, run_succ hstep 0, ht.content, ht.reg, ht.pending, ht.rsp⟩
  · rw [if_neg hv] at hu ⊢
    rw [Int.natAbs_of_nonneg (by omega)] at hu
    exact ⟨u, rfl, hu.content, hu.reg, hu.pending, hu.rsp⟩

end Sys2Proof.Machine
end

section
/-! The data movement and status commands (40_data_movement.md R100 to R110): each ends with the write, the answer or the exception of its
rule. -/

namespace Sys2Proof.Machine

/-! ### Contents (00_scope.md R11, R12; 10_state.md R22, R23) -/

/-- A register within the invariant holds the content of its integer. -/
theorem ofInt_value {s : State} (h : s.Inv) (r : Reg) : BigInt.ofInt (s.value r) = s.reg r := BigInt.ofInt_toInt (h.2.1 r)

theorem value_eq_zero_iff {s : State} (h : s.Inv) (r : Reg) : s.value r = 0 ↔ s.limbsOf r = [] := by
  rw [← Int.natAbs_eq_zero, natAbs_value h, val_eq_zero_of_canonical (canonical_limbsOf h r)]

/-- Opposite integers have the same limbs. -/
theorem BigInt.ofInt_neg_limbs (v : Int) : (BigInt.ofInt (-v)).limbs = (BigInt.ofInt v).limbs := by
  simp only [BigInt.ofInt, Int.natAbs_neg]

/-- A limb appended to a canonical sequence leaves it canonical, unless it is zero and the only one. -/
theorem canonical_append_limb {L : List Limb} {d : Limb} (h : Canonical L) (hd : ¬ (L = [] ∧ d = 0)) : Canonical (L ++ [d]) := by
  cases L with
  | nil => exact (canonical_cons_iff d []).2 fun h0 => hd ⟨rfl, h0⟩
  | cons e L => exact (canonical_cons_iff e _).2 ((canonical_cons_iff e L).1 h)

/-- The limbs of a magnitude with the limb `d` appended. -/
theorem toLimbs_append_limb {L : List Limb} (d : Limb) (h : Canonical L) :
    toLimbs (val L * 2 ^ 64 + d.toNat) = if L = [] ∧ d = 0 then [] else L ++ [d] := by
  split
  next h0 =>
    obtain ⟨rfl, rfl⟩ := h0
    exact toLimbs_zero
  next h0 =>
    have hval : val (L ++ [d]) = val L * 2 ^ 64 + d.toNat := by simp [val_append]
    rw [← hval, toLimbs_val (canonical_append_limb h h0)]

/-- The content of a scalar (R103): the one limb, or none for zero. -/
theorem BigInt.ofInt_scalar (a : Scalar) : BigInt.ofInt a.toNat = if a = 0 then ⟨.zero, []⟩ else ⟨.pos, [a]⟩ := by
  have hlimbs := toLimbs_append_limb a canonical_nil
  simp only [val_nil, Nat.zero_mul, Nat.zero_add, true_and, List.nil_append] at hlimbs
  rw [BigInt.ofInt, Int.natAbs_natCast, hlimbs]
  split
  next h0 => rw [h0]; rfl
  next h0 => rw [Tri.ofInt_of_pos (Int.natCast_pos.2 (toNat_pos_of_ne_zero h0))]

/-! ### Commands without operands, and `CLR` (R100, R101, R109, R110) -/

/-- Settles O12: `NOP` answers 0. -/
theorem nopSetsOnlyLasterr : Obligations.NopSetsOnlyLasterr :=
  ⟨decodeOfEncode .nop rfl, answer_answered 0⟩

/-- Settles O13: zero fits, and its content is the unique zero. -/
theorem clrWritesZero : Obligations.ClrWritesZero :=
  fun rd => ⟨decodeOfEncode (.clr rd) rfl, fun s => commit_wrote rd (fits_zero s)⟩

/-- The fields of `STATUS` stand at the bits of R26. -/
theorem Status.word_fields (t : Status) :
    t.word.extractLsb' 0 4 = t.lastErr.code ∧ t.word.extractLsb' 4 1 = BitVec.ofBool t.fault ∧ t.word.extractLsb' 5 3 = 0 ∧
      t.word.extractLsb' 8 4 = t.firstErr.code ∧ t.word.extractLsb' 12 2 = t.cmp.code ∧ t.word.extractLsb' 14 50 = 0 := by
  rw [Status.word]
  refine ⟨?_, ?_, ?_, ?_, ?_, ?_⟩ <;>
    · ext i hi
      simp only [BitVec.getElem_extractLsb', BitVec.getLsbD_append]
      interval_cases i <;> simp [BitVec.getLsbD_eq_getElem]

/-- Settles O21: the answer is the word of `STATUS`, read field by field. -/
theorem rdstReadsStatus : Obligations.RdstReadsStatus :=
  ⟨decodeOfEncode .rdst rfl, by decide, fun s => ⟨s.status.word, rfl, s.status.word_fields⟩⟩

/-- Settles O22: `CLRF` clears the record and answers 0. -/
theorem clrfClearsRecord : Obligations.ClrfClearsRecord :=
  ⟨decodeOfEncode .clrf rfl, fun s => answer_answered 0 { s with status := { s.status with fault := false, firstErr := .none } }⟩

/-! ### Commands that write one register (R102 to R105) -/

/-- Settles O14: the value read fits and its content is the content read, which a write of another register leaves alone. -/
theorem copyCopiesValue : Obligations.CopyCopiesValue := by
  refine fun rd rs1 => ⟨decodeOfEncode (.copy rd rs1) rfl, fun s h => ?_⟩
  obtain ⟨t, hexec, hwrote, hreg⟩ := commit_wrote rd (fits_value h rs1)
  rw [ofInt_value h] at hreg
  exact ⟨t, hexec, hwrote, hreg, fun r b hr => (reg_setReg_other t b hr.symm).trans hreg⟩

/-- Settles O15: a scalar fits a register of any capacity. -/
theorem ldiLoadsScalar : Obligations.LdiLoadsScalar := by
  refine fun rd => ⟨decodeOfEncode (.ldi rd) rfl, fun s h => ?_⟩
  obtain ⟨t, hexec, hwrote, hreg⟩ := commit_wrote rd (fits_scalar h s.arg)
  exact ⟨t, hexec, hwrote, hreg.trans (BigInt.ofInt_scalar s.arg)⟩

/-- Settles O17: the negation has the limbs of the value read, so it fits where that does. -/
theorem negNegates : Obligations.NegNegates := by
  refine fun rd rs1 => ⟨decodeOfEncode (.neg rd rs1) rfl, fun s h => ?_⟩
  have hfits : Fits s (-s.value rs1) := fits_of_natAbs_le (fits_value h rs1) (Int.natAbs_neg _).le
  obtain ⟨t, hexec, hwrote, hreg⟩ := commit_wrote rd hfits
  refine ⟨t, hexec, hwrote, ?_⟩
  rw [limbsOf_eq, hreg, BigInt.ofInt_neg_limbs, ofInt_value h, limbsOf_eq]

theorem pushLimb_eq (v : Int) (a : Nat) : pushLimb v a = (if v < 0 then -1 else 1) * (v.natAbs * 2 ^ 64 + a) := by
  unfold pushLimb
  split
  · exact (Int.neg_one_mul _).symm
  · exact (Int.one_mul _).symm

theorem natAbs_pushLimb (v : Int) (a : Nat) : (pushLimb v a).natAbs = v.natAbs * 2 ^ 64 + a := by
  simp only [pushLimb]
  split <;> omega

/-- The limbs of the value that `PUSHL` writes. -/
theorem limbs_pushLimb {s : State} (h : s.Inv) (rd : Reg) :
    toLimbs (pushLimb (s.value rd) s.scalar).natAbs = if s.value rd = 0 ∧ s.arg = 0 then [] else s.limbsOf rd ++ [s.arg] := by
  simp only [natAbs_pushLimb, natAbs_value h, value_eq_zero_iff h]
  exact toLimbs_append_limb s.arg (canonical_limbsOf h rd)

/-- The value that `PUSHL` writes has one limb too many exactly for a nonzero register that is full. -/
theorem fits_pushLimb_iff {s : State} (h : s.Inv) (rd : Reg) :
    Fits s (pushLimb (s.value rd) s.scalar) ↔ ¬ (s.value rd ≠ 0 ∧ s.len rd = s.cfg.maxLimbs) := by
  have hlen : s.len rd = (s.limbsOf rd).length := rfl
  have hle := len_le h rd
  have hcap := (inv_limits h).1
  rw [Fits, ← length_toLimbs_le_iff, limbs_pushLimb h]
  by_cases hv : s.value rd = 0
  · have hnil := (value_eq_zero_iff h rd).1 hv
    split <;> simp [hv, hnil, hcap]
  · rw [if_neg (fun h0 => hv h0.1), List.length_append, List.length_singleton]
    omega

/-- Settles O16: the two clauses are the two ways the capacity check can go. -/
theorem pushlAppendsLimb : Obligations.PushlAppendsLimb := by
  refine fun rd => ⟨decodeOfEncode (.pushl rd) rfl, fun s h => ⟨fun hfull => ?_, fun hroom => ?_⟩⟩
  · exact commit_raised rd fun hfits => (fits_pushLimb_iff h rd).1 hfits hfull
  · obtain ⟨t, hexec, hwrote, hreg⟩ := commit_wrote rd ((fits_pushLimb_iff h rd).2 hroom)
    rw [pushLimb_eq] at hwrote
    refine ⟨t, hexec, hwrote, ?_⟩
    rw [limbsOf_eq, hreg]
    exact limbs_pushLimb h rd

/-! ### Commands that read one register (R106 to R108) -/

theorem execRdl_of_limbRead {s : State} {rs1 : Reg} {d : Limb} (h : s.limbRead rs1 s.scalar = some d) :
    execRdl rs1 s = answer d s := by
  simp only [execRdl, h]

theorem execRdl_of_no_limb {s : State} {rs1 : Reg} (h : s.limbRead rs1 s.scalar = none) :
    execRdl rs1 s = throwErr .badInputData s := by
  simp only [execRdl, h]

/-- Settles O18: whether there is a limb at the index decides between the answer and the exception. -/
theorem rdlReadsLimb : Obligations.RdlReadsLimb := by
  refine fun rs1 => ⟨decodeOfEncode (.rdl rs1) rfl, fun s => ⟨fun d hd => ?_, fun hlen => ?_⟩⟩
  · rw [exec, execRdl_of_limbRead hd]
    exact answer_answered d s
  · rw [exec, execRdl_of_no_limb (List.getElem?_eq_none hlen)]
    exact throwErr_raised _ s

/-- Settles O19: a length within the capacity is a scalar without loss. -/
theorem rdlenReadsLength : Obligations.RdlenReadsLength := by
  refine fun rs1 => ⟨decodeOfEncode (.rdlen rs1) rfl, fun s h => ?_⟩
  obtain ⟨t, hexec, hanswered⟩ := answer_answered (BitVec.ofNat 64 (s.len rs1)) s
  refine ⟨t, _, hexec, hanswered, ?_⟩
  have hle := len_le h rs1
  have hcap := (inv_limits h).2
  rw [BitVec.toNat_ofNat]
  omega

/-- The sign code as a scalar (R16, R108). -/
theorem Tri.scalar_ofInt (v : Int) : (Tri.ofInt v).scalar = if v = 0 then 0 else if v > 0 then 1 else 3 := by
  rcases lt_trichotomy v 0 with hv | rfl | hv
  · rw [Tri.ofInt_of_neg hv, if_neg hv.ne, if_neg hv.not_gt]; rfl
  · rfl
  · rw [Tri.ofInt_of_pos hv, if_neg hv.ne', if_pos hv]; rfl

/-- Settles O20: the sign of a canonical content is the sign of its integer. -/
theorem rdsgnReadsSign : Obligations.RdsgnReadsSign := by
  refine fun rs1 => ⟨decodeOfEncode (.rdsgn rs1) rfl, fun s h => ?_⟩
  obtain ⟨t, hexec, hanswered⟩ := answer_answered (s.reg rs1).sign.scalar s
  refine ⟨t, _, hexec, hanswered, ?_⟩
  rw [BigInt.sign_eq (h.2.1 rs1), ← value_eq, Tri.scalar_ofInt]

end Sys2Proof.Machine
end

section
/-! The representation command (41_representation.md R123): the bit length on the limb layout is the bit length of the magnitude. -/

namespace Sys2Proof.Machine

/-- `n` low bits below a nonzero number add `n` to its bit length. -/
theorem bitlen_mul_two_pow_add {d n r : Nat} (hd : 0 < d) (hr : r < 2 ^ n) : bitlen (d * 2 ^ n + r) = n + bitlen d := by
  have hdiv : (d * 2 ^ n + r) / 2 ^ n = d := by
    rw [Nat.mul_comm, Nat.mul_add_div (by positivity), Nat.div_eq_of_lt hr, Nat.add_zero]
  refine eq_of_forall_ge_iff fun k => ?_
  rw [bitlen_le_iff]
  obtain hk | hk := Nat.lt_or_ge k n
  · have hle : 2 ^ k ≤ d * 2 ^ n := (Nat.pow_le_pow_right two_pos hk.le).trans (Nat.le_mul_of_pos_left _ hd)
    omega
  · obtain ⟨j, rfl⟩ := Nat.exists_eq_add_of_le hk
    rw [Nat.add_le_add_iff_left, bitlen_le_iff, Nat.pow_add, Nat.mul_comm (2 ^ n), ← Nat.div_lt_iff_lt_mul (by positivity), hdiv]

/-- The bit length on the limb layout (R123) is that of the number: the leading limb is nonzero, and each limb below it is 64 low bits. -/
theorem limbBitlen_eq {L : List Limb} (h : Canonical L) : limbBitlen L = bitlen (val L) := by
  cases L with
  | nil => rfl
  | cons top L =>
    have htop := toNat_pos_of_ne_zero ((canonical_cons_iff top L).1 h)
    have hlow : val L < 2 ^ (64 * L.length) := by rw [pow_mul]; exact val_lt L
    rw [limbBitlen, val_cons, ← pow_mul, bitlen_mul_two_pow_add htop hlow]

/-- A bit length is a scalar without loss: the magnitude is within the capacity (R7, R22). -/
theorem bitlen_natAbs_value_lt {s : State} (h : s.Inv) (r : Reg) : bitlen (s.value r).natAbs < 2 ^ 64 := by
  have hbits : bitlen (s.value r).natAbs ≤ 64 * s.len r := by
    rw [bitlen_le_iff, natAbs_value h, pow_mul]
    exact val_lt (s.limbsOf r)
  have hlen := len_le h r
  have hcap := (inv_limits h).2
  omega

/-- Settles O24: the answer is the bit length of the magnitude, which is the least `k` of R9. -/
theorem bitlenCountsBits : Obligations.BitlenCountsBits := by
  refine fun rs1 => ⟨decodeOfEncode (.bitlen rs1) rfl, fun s h => ?_⟩
  obtain ⟨t, hexec, hanswered⟩ := answer_answered (BitVec.ofNat 64 (limbBitlen (s.limbsOf rs1))) s
  refine ⟨t, _, hexec, hanswered, fun k => ?_⟩
  rw [limbBitlen_eq (canonical_limbsOf h rs1), ← natAbs_value h, BitVec.toNat_ofNat,
    Nat.mod_eq_of_lt (bitlen_natAbs_value_lt h rs1), bitlen_le_iff]

end Sys2Proof.Machine
end

section
/-! Linear arithmetic (42_linear_arithmetic.md R134 to R143): ADD, SUB, CMP, SHR, DIV3 and POW2 write the integer of their rule, when it
fits. -/

namespace Sys2Proof.Machine

/-! ### Sums that fit (R134, R135, R243) -/

/-- A sum of integers of opposite signs, or with a zero, is no longer than one of them. -/
theorem natAbs_add_le_or_of_mul_nonpos {a b : Int} (h : a * b ≤ 0) : (a + b).natAbs ≤ a.natAbs ∨ (a + b).natAbs ≤ b.natAbs := by
  obtain ⟨ha, hb⟩ | ⟨ha, hb⟩ := mul_nonpos_iff.1 h <;> omega

/-- Without operands of one sign nothing is carried beyond the capacity. -/
theorem fits_add_of_mul_nonpos {s : State} {a b : Int} (ha : Fits s a) (hb : Fits s b) (h : a * b ≤ 0) : Fits s (a + b) :=
  (natAbs_add_le_or_of_mul_nonpos h).elim (fits_of_natAbs_le ha) (fits_of_natAbs_le hb)

/-- An operand with at most `n` limbs is below `β^n`. -/
theorem natAbs_value_lt {s : State} (h : s.Inv) {r : Reg} {n : Nat} (hr : s.len r ≤ n) : (s.value r).natAbs < (2 ^ 64) ^ n := by
  rw [natAbs_value h]
  exact (length_le_iff_of_canonical (canonical_limbsOf h r) n).1 hr

/-- Two operands that each leave a limb free have a sum that fits: a carry is one more limb. -/
theorem fits_add_of_len_lt {s : State} (h : s.Inv) {r q : Reg} (hr : s.len r < s.cfg.maxLimbs) (hq : s.len q < s.cfg.maxLimbs) :
    Fits s (s.value r + s.value q) := by
  obtain ⟨n, hn⟩ := Nat.exists_eq_add_of_lt (Nat.zero_lt_of_lt hr)
  rw [Nat.zero_add] at hn
  have hvr := natAbs_value_lt h (n := n) (r := r) (by omega)
  have hvq := natAbs_value_lt h (n := n) (r := q) (by omega)
  rw [Fits, hn, pow_succ]
  omega

/-- A sum that does not fit has operands of one sign, one of which fills its register. -/
theorem mul_pos_and_full_of_not_fits_add {s : State} (h : s.Inv) {r q : Reg} (hsum : ¬ Fits s (s.value r + s.value q)) :
    0 < s.value r * s.value q ∧ (s.len r = s.cfg.maxLimbs ∨ s.len q = s.cfg.maxLimbs) := by
  constructor
  · by_contra hsign
    exact hsum (fits_add_of_mul_nonpos (fits_value h r) (fits_value h q) (not_lt.1 hsign))
  · by_contra hfull
    obtain ⟨hr, hq⟩ := not_or.1 hfull
    exact hsum (fits_add_of_len_lt h (lt_of_le_of_ne (len_le h r) hr) (lt_of_le_of_ne (len_le h q) hq))

/-- A difference that does not fit has operands of opposite signs. -/
theorem mul_neg_of_not_fits_sub {s : State} (h : s.Inv) {r q : Reg} (hdiff : ¬ Fits s (s.value r - s.value q)) :
    s.value r * s.value q < 0 := by
  by_contra hsign
  have hneg : Fits s (-s.value q) := fits_of_natAbs_le (fits_value h q) (Int.natAbs_neg _).le
  exact hdiff (fits_add_of_mul_nonpos (fits_value h r) hneg (by rw [mul_neg]; omega))

/-! ### ADD and SUB (R134 to R136) -/

/-- A write that passes the check, where the content is not asked for. -/
theorem commit_wrote_value {s : State} {v : Int} (rd : Reg) (h : Fits s v) : ∃ t, commit rd v s = .next t ∧ Wrote s t rd v := by
  obtain ⟨t, hexec, hwrote, -⟩ := commit_wrote rd h
  exact ⟨t, hexec, hwrote⟩

/-- Settles O25: the two clauses are the two ways the capacity check on the exact sum can go. -/
theorem addIsExact : Obligations.AddIsExact := by
  refine fun rd rs1 rs2 => ⟨decodeOfEncode (.add rd rs1 rs2) rfl, fun s h => ?_⟩
  rw [exec, execAdd_eq]
  exact ⟨commit_wrote_value rd, fun hfull => ⟨commit_raised rd hfull, mul_pos_and_full_of_not_fits_add h hfull⟩⟩

/-- Settles O26: the two clauses are the two ways the capacity check on the exact difference can go. -/
theorem subIsExact : Obligations.SubIsExact := by
  refine fun rd rs1 rs2 => ⟨decodeOfEncode (.sub rd rs1 rs2) rfl, fun s h => ?_⟩
  rw [exec, execSub_eq]
  exact ⟨commit_wrote_value rd, fun hfull => ⟨commit_raised rd hfull, mul_neg_of_not_fits_sub h hfull⟩⟩

/-- Settles O27: after the sum the second operand is as before, so the difference is the first operand, which fits. -/
theorem additiveInverse : Obligations.AdditiveInverse := by
  intro s rd rs1 rs2 h hne hfits
  obtain ⟨t, hadd, ⟨hsum, -, htother, -, -, htcfg, -⟩, -⟩ := commit_wrote rd hfits
  have hdiff : t.value rd - t.value rs2 = s.value rs1 := by
    rw [hsum, value_eq t, htother rs2 hne.symm, ← value_eq, add_sub_cancel_right]
  have hback : Fits t (s.value rs1) := by
    rw [Fits, htcfg]
    exact fits_value h rs1
  obtain ⟨u, hsub, ⟨hvalue, -, huother, -⟩, hcontent⟩ := commit_wrote rd hback
  refine ⟨t, u, (execAdd_eq ..).trans hadd, ?_, hvalue, hcontent.trans (ofInt_value h rs1), fun r hr => ?_⟩
  · rw [exec, execSub_eq, hdiff, hsub]
  · rw [huother r hr, htother r hr]

/-! ### CMP (R137) -/

theorem Tri.ofInt_sub (a b : Int) : Tri.ofInt (a - b) = if a < b then .neg else if a = b then .zero else .pos := by
  simp only [Tri.ofInt, sub_neg, sub_eq_zero]

/-- The comparison of two registers within the invariant is that of their integers. -/
theorem compareSigned_reg {s : State} (h : s.Inv) (rs1 rs2 : Reg) :
    compareSigned (s.reg rs1) (s.reg rs2) =
      if s.value rs1 < s.value rs2 then .neg else if s.value rs1 = s.value rs2 then .zero else .pos := by
  rw [compareSigned_eq (h.2.1 rs1) (h.2.1 rs2), ← Tri.ofInt_sub]
  rfl

/-- Settles O28: the flag takes the comparison of the contents, the answer is its code. -/
theorem cmpCompares : Obligations.CmpCompares := by
  refine fun rs1 rs2 => ⟨decodeOfEncode (.cmp rs1 rs2) rfl, fun s h => ?_⟩
  refine ⟨_, compareSigned (s.reg rs1) (s.reg rs2), rfl, compareSigned_reg h rs1 rs2, rfl, ?_, fun _ => rfl, rfl, rfl, rfl, rfl⟩
  rw [succeed_rsp]
  cases compareSigned (s.reg rs1) (s.reg rs2) <;> rfl

/-! ### SHR (R139) -/

/-- A sign put before a magnitude does not add to it. -/
theorem natAbs_sign_mul_le (v : Int) (m : Nat) : (v.sign * m).natAbs ≤ m := by
  rcases Int.sign_trichotomy v with h | h | h <;> rw [h] <;> omega

/-- Settles O29: the shifted magnitude is not above the old one, so it fits. -/
theorem shrShiftsMagnitude : Obligations.ShrShiftsMagnitude := by
  refine fun rd rs1 => ⟨decodeOfEncode (.shr rd rs1) rfl, fun s h => ?_⟩
  have hfits : Fits s ((s.value rs1).sign * ((s.value rs1).natAbs / 2 ^ s.arg.toNat : Nat)) :=
    fits_of_natAbs_le (fits_value h rs1) ((natAbs_sign_mul_le _ _).trans (Nat.div_le_self _ _))
  rw [exec, execShr_eq h]
  exact commit_wrote_value rd hfits

/-! ### DIV3 (R141; 93_implementation_defined.md U1) -/

/-- Settles O30: the quotient is not above the dividend in magnitude, so it fits. -/
theorem div3OfMultiple : Obligations.Div3OfMultiple := by
  refine fun rd rs1 => ⟨decodeOfEncode (.div3 rd rs1) rfl, fun s q h hq => ?_⟩
  have hfits : Fits s q := fits_of_natAbs_le (fits_value h rs1) (by omega)
  rw [exec, execDiv3_eq h rd rs1 hq]
  exact commit_wrote_value rd hfits

/-- The undefined case ends with the free values (U1). -/
theorem execDiv3_of_not_dvd {s : State} (rd : Reg) {rs1 : Reg} (h : ¬ (3 : Int) ∣ s.value rs1) :
    execDiv3 rd rs1 s = .next (undefinedResult rd s) := by
  rw [execDiv3, if_pos (by omega)]

/-- Settles O31: the command ends with the free values, whose content is cut to R22. -/
theorem div3OfNonMultiple : Obligations.Div3OfNonMultiple := by
  intro rd rs1 s h
  refine ⟨_, execDiv3_of_not_dvd rd h, fun r hr => undefinedResult_reg_other rd s hr, rfl, ?_, rfl, rfl, rfl, rfl⟩
  rw [undefinedResult_reg_same]
  exact wf_boundedContent _ _

/-! ### POW2 (R143) -/

theorem toNat_one_shiftLeft {k : Nat} (hk : k < 64) : ((1 : Limb) <<< k).toNat = 2 ^ k := by
  have h1 : (1 : Limb).toNat = 1 := rfl
  rw [BitVec.toNat_shiftLeft, Nat.shiftLeft_eq, h1, Nat.one_mul, Nat.mod_eq_of_lt (Nat.pow_lt_pow_right (by norm_num) hk)]

theorem val_replicate_zero (n : Nat) : val (List.replicate n 0) = 0 := by
  rw [← valLeast_reverse, List.reverse_replicate, valLeast_replicate_zero]

/-- The limbs of a power of two: one bit in the leading limb, zero limbs below it. -/
theorem toLimbs_two_pow (n : Nat) : toLimbs (2 ^ n) = (1 : Limb) <<< (n % 64) :: List.replicate (n / 64) 0 := by
  have htop := toNat_one_shiftLeft (Nat.mod_lt n (by norm_num : 0 < 64))
  have hval : val ((1 : Limb) <<< (n % 64) :: List.replicate (n / 64) 0) = 2 ^ n := by
    rw [val_cons, htop, val_replicate_zero, List.length_replicate, Nat.add_zero, ← pow_mul, ← pow_add, Nat.mod_add_div]
  have hcanonical : Canonical ((1 : Limb) <<< (n % 64) :: List.replicate (n / 64) 0) := by
    rw [canonical_cons_iff]
    intro h0
    rw [h0] at htop
    exact (Nat.two_pow_pos (n % 64)).ne htop
  rw [← hval, toLimbs_val hcanonical]

/-- The content of a power of two (R143). -/
theorem BigInt.ofInt_two_pow (n : Nat) :
    BigInt.ofInt (2 ^ n) = ⟨.pos, (1 : Limb) <<< (n % 64) :: List.replicate (n / 64) 0⟩ := by
  rw [BigInt.ofInt, Tri.ofInt_of_pos (by positivity), Int.natAbs_pow, ← toLimbs_two_pow]
  rfl

/-- The test that `POW2` makes on the scalar is the capacity check on the power. -/
theorem fits_two_pow_iff (s : State) (n : Nat) : Fits s (2 ^ n) ↔ n / 64 + 1 ≤ s.cfg.maxLimbs := by
  have habs : ((2 : Int) ^ n).natAbs = 2 ^ n := Int.natAbs_pow 2 n
  rw [Fits, habs, ← length_toLimbs_le_iff, toLimbs_two_pow, List.length_cons, List.length_replicate]

theorem execPow2_eq {s : State} (rd : Reg) (h : s.arg.toNat / 64 + 1 ≤ s.cfg.maxLimbs) :
    execPow2 rd s = commit rd (2 ^ s.arg.toNat) s := if_neg (not_lt.2 h)

theorem execPow2_of_capacity_lt {s : State} (rd : Reg) (h : s.arg.toNat / 64 + 1 > s.cfg.maxLimbs) :
    execPow2 rd s = throwErr .allocationFailed s := if_pos h

/-- Settles O32: the test on the scalar decides between the exception and the write of the power, which then fits. -/
theorem pow2BuildsPower : Obligations.Pow2BuildsPower := by
  refine fun rd => ⟨decodeOfEncode (.pow2 rd) rfl, fun s => ⟨fun hroom => ?_, fun hfull => ?_⟩⟩
  · obtain ⟨t, hexec, hwrote, hcontent⟩ := commit_wrote rd ((fits_two_pow_iff s s.arg.toNat).2 hroom)
    exact ⟨t, (execPow2_eq rd hroom).trans hexec, hwrote, hcontent.trans (BigInt.ofInt_two_pow _)⟩
  · rw [exec, execPow2_of_capacity_lt rd hfull]
    exact throwErr_raised _ s

end Sys2Proof.Machine
end

section
/-! Multiplication (43_multiplication.md R160 to R176): MULS, MULK and MULT3 write the product, when it fits, and the Toom-Cook-3 datapath
divides exactly. -/

namespace Sys2Proof.Machine

/-! ### The length of a product (R162) -/

/-- A product of nonzero magnitudes has as many limbs as its factors together, or one fewer. -/
theorem length_toLimbs_mul {a b : Nat} (ha : a ≠ 0) (hb : b ≠ 0) :
    (toLimbs (a * b)).length = (toLimbs a).length + (toLimbs b).length ∨
      (toLimbs (a * b)).length + 1 = (toLimbs a).length + (toLimbs b).length := by
  have hupper : (toLimbs (a * b)).length ≤ (toLimbs a).length + (toLimbs b).length := by
    rw [length_toLimbs_le_iff, pow_add]
    exact Nat.mul_lt_mul'' ((length_toLimbs_le_iff a _).1 le_rfl) ((length_toLimbs_le_iff b _).1 le_rfl)
  obtain ⟨m, hm⟩ := Nat.exists_eq_succ_of_ne_zero (mt List.length_eq_zero_iff.1 (mt (toLimbs_eq_nil_iff a).1 ha))
  obtain ⟨n, hn⟩ := Nat.exists_eq_succ_of_ne_zero (mt List.length_eq_zero_iff.1 (mt (toLimbs_eq_nil_iff b).1 hb))
  have hlower : m + n < (toLimbs (a * b)).length := by
    rw [lt_length_toLimbs_iff, pow_add]
    exact Nat.mul_le_mul ((lt_length_toLimbs_iff a m).1 (by omega)) ((lt_length_toLimbs_iff b n).1 (by omega))
  omega

/-- The length of a register within the invariant is that of its magnitude. -/
theorem len_eq_length_toLimbs {s : State} (h : s.Inv) (r : Reg) : s.len r = (toLimbs (s.value r).natAbs).length :=
  congrArg List.length (limbsOf_value h r)

/-! ### MULS, MULK and MULT3 (R161 to R164, R170) -/

/-- Settles O33: the two clauses are the two ways the capacity check on the exact product can go, and the content written has the limbs of
the product of the magnitudes. -/
theorem mulsMultiplies : Obligations.MulsMultiplies := by
  refine fun rd rs1 rs2 => ⟨decodeOfEncode (.muls rd rs1 rs2) rfl, fun s h => ?_⟩
  rw [exec, execMuls_eq h]
  refine ⟨fun hfits => ?_, commit_raised rd⟩
  obtain ⟨t, hexec, hwrote, hcontent⟩ := commit_wrote rd hfits
  refine ⟨t, hexec, hwrote, fun h1 h2 => ?_⟩
  have hlen : t.len rd = (toLimbs ((s.value rs1).natAbs * (s.value rs2).natAbs)).length := by
    rw [len_eq, hcontent, BigInt.ofInt, Int.natAbs_mul]
  rw [hlen, len_eq_length_toLimbs h, len_eq_length_toLimbs h]
  exact length_toLimbs_mul (Int.natAbs_ne_zero.2 h1) (Int.natAbs_ne_zero.2 h2)

/-- Settles O34: Karatsuba's product is the product, and the capacity check on it can go two ways. -/
theorem mulkMultiplies : Obligations.MulkMultiplies := by
  refine fun rd rs1 rs2 => ⟨decodeOfEncode (.mulk rd rs1 rs2) rfl, fun s h => ?_⟩
  rw [exec, execMulk_eq h]
  exact ⟨commit_wrote_value rd, commit_raised rd⟩

/-- Settles O35: the product of Toom-Cook-3 is the product, and the capacity check on it can go two ways. -/
theorem mult3Multiplies : Obligations.Mult3Multiplies := by
  refine fun rd rs1 rs2 => ⟨decodeOfEncode (.mult3 rd rs1 rs2) rfl, fun s h => ?_⟩
  rw [exec, execMult3_eq h]
  exact ⟨commit_wrote_value rd, commit_raised rd⟩

/-- Settles O36: each of the three commands is the same write of the product. -/
theorem multipliersInterchangeable : Obligations.MultipliersInterchangeable := by
  intro s rd rs1 rs2 h
  obtain ⟨t, hexec, -⟩ := exec_ends (.muls rd rs1 rs2) s
  have hcommit : commit rd (s.value rs1 * s.value rs2) s = .next t := (execMuls_eq h rd rs1 rs2).symm.trans hexec
  exact ⟨t, hexec, (execMulk_eq h rd rs1 rs2).trans hcommit, (execMult3_eq h rd rs1 rs2).trans hcommit⟩

/-! ### The Toom-Cook-3 datapath (R171 to R176) -/

@[simp] theorem half_two_mul (q : Int) : half (2 * q) = q := by
  rw [half_eq (Dvd.intro q rfl), Int.mul_ediv_cancel_left q two_ne_zero]

@[simp] theorem third_three_mul (q : Int) : third (3 * q) = q := by
  rw [third_eq (Dvd.intro q rfl), Int.mul_ediv_cancel_left q three_ne_zero]

/-- The values at the five points, written out (R172, R173). -/
theorem FiveCoefficients.points_eq (c : FiveCoefficients) :
    c.points = ⟨c.r0, c.r4 + c.r3 + c.r2 + c.r1 + c.r0, c.r4 - c.r3 + c.r2 - c.r1 + c.r0,
      16 * c.r4 - 8 * c.r3 + 4 * c.r2 - 2 * c.r1 + c.r0, c.r4⟩ := by
  simp only [FiveCoefficients.points, FiveCoefficients.eval, FivePoints.mk.injEq, and_true]
  refine ⟨?_, ?_, ?_, ?_⟩ <;> ring

/-- The interpolation inverts the evaluation (R176). -/
theorem toomInterp_points (c : FiveCoefficients) : toomInterp c.points = c := by
  rw [c.points_eq, toomInterp_eq]

/-- The recomposition evaluates the polynomial at `B` (R175, R176). -/
theorem toomRecompose_eq_eval (c : FiveCoefficients) (k : Nat) : toomRecompose c k = c.eval (2 ^ (64 * k)) := by
  rw [toomRecompose_eq, FiveCoefficients.eval]
  ring

/-- The dividends of the three exact divisions of the interpolation (R174, R176). -/
theorem FiveCoefficients.points_dividends (c : FiveCoefficients) :
    c.points.atNeg2 - c.points.at1 = 3 * (5 * c.r4 - 3 * c.r3 + c.r2 - c.r1) ∧
      c.points.at1 - c.points.atNeg1 = 2 * (c.r3 + c.r1) ∧
      c.points.atNeg1 - c.points.at0 - (5 * c.r4 - 3 * c.r3 + c.r2 - c.r1) = 2 * (c.r3 - 2 * c.r4) := by
  rw [c.points_eq]
  refine ⟨?_, ?_, ?_⟩ <;> ring

/-- A polynomial of degree at most 2 is evaluated at the five points (R172). -/
theorem toomEval_eq_points {c : FiveCoefficients} (h4 : c.r4 = 0) (h3 : c.r3 = 0) :
    toomEval c.r0 c.r1 c.r2 = ⟨c.eval 0, c.eval 1, c.eval (-1), c.eval (-2), c.r2⟩ := by
  simp only [toomEval_eq, FiveCoefficients.eval, h4, h3, FivePoints.mk.injEq, and_true]
  refine ⟨?_, ?_, ?_, ?_⟩ <;> ring

/-- Settles O55: the split, the three divisions and the interpolation, the recomposition, the evaluation with the pointwise product, and the
whole datapath are each exact. -/
theorem toomDatapathIsExact : Obligations.ToomDatapathIsExact := by
  refine ⟨fun m k => (toomSplit_eq m k).symm, ?_, toomRecompose_eq_eval, ?_, fun a b n => ?_⟩
  · rintro c w rfl
    obtain ⟨hthird, hhalf, hlast⟩ := c.points_dividends
    rw [hthird, hhalf, third_three_mul, half_two_mul, hlast, half_two_mul]
    exact ⟨by ring, rfl, rfl, rfl, by ring, rfl, toomInterp_points c⟩
  · intro a b ha4 ha3 hb4 hb3
    rw [toomEval_eq_points ha4 ha3, toomEval_eq_points hb4 hb3]
    simp only [toomPointwise, smul_eq]
  · rw [toomMag_eq, Nat.cast_mul]

end Sys2Proof.Machine
end

section
/-! Division (44_division.md R190 to R193): DIV and MOD write the floored results, which always fit, and the division law runs on the
machine. -/

namespace Sys2Proof.Machine

/-! ### Equal destinations (R76) -/

/-- The word of a command that is not well formed is refused for its equal destinations: the other half of `decodeOfEncode`. -/
theorem decode_encode_of_not_wf {i : Instr} (h : ¬ i.wf = true) : decode (encode i) = .error .sameDestination := by
  obtain ⟨hop, hu⟩ := (and_mask_eq_iff _ _ _).1 (encode_masked i)
  rw [← command_ofWord_encode i, wf_command, not_not] at h
  rw [decode_of_unusedZero hop.symm hu, if_pos h]

/-! ### Floored division (R190, R193) -/

theorem floor_div_eq_fdiv_of_pos (a : Int) {b : Int} (hb : 0 < b) : ⌊(a : ℚ) / b⌋ = a.fdiv b := by
  lift b to Nat using hb.le
  rw [Int.cast_natCast, Rat.floor_intCast_div_natCast, Int.fdiv_eq_ediv_of_nonneg a hb.le]

/-- The quotient that the datapath computes is the floor of the rational one: for a negative divisor both signs are changed first. -/
theorem floor_div_eq_fdiv (a : Int) {b : Int} (hb : b ≠ 0) : ⌊(a : ℚ) / b⌋ = a.fdiv b := by
  rcases lt_or_gt_of_ne hb with hneg | hpos
  · have h := floor_div_eq_fdiv_of_pos (-a) (neg_pos.2 hneg)
    rwa [Int.cast_neg, Int.cast_neg, neg_div_neg_eq, Int.neg_fdiv_neg] at h
  · exact floor_div_eq_fdiv_of_pos a hpos

/-- The remainder of R190 is the one the datapath computes. -/
theorem sub_floor_mul_eq_fmod (a : Int) {b : Int} (hb : b ≠ 0) : a - ⌊(a : ℚ) / b⌋ * b = a.fmod b := by
  rw [floor_div_eq_fdiv a hb, Int.fmod_def, mul_comm]

/-- A nonzero floored remainder has the sign of the divisor (R193). -/
theorem fmod_eq_zero_or_sign_eq (a : Int) {b : Int} (hb : b ≠ 0) : a.fmod b = 0 ∨ (a.fmod b).sign = b.sign := by
  refine or_iff_not_imp_left.2 fun h0 => ?_
  rcases lt_or_gt_of_ne hb with hneg | hpos
  · have h := Int.fmod_nonneg_of_pos (-a) (neg_pos.2 hneg)
    rw [Int.neg_fmod_neg] at h
    rw [Int.sign_eq_neg_one_of_neg hneg, Int.sign_eq_neg_one_of_neg (by omega)]
  · have h := Int.fmod_nonneg_of_pos a hpos
    rw [Int.sign_eq_one_of_pos hpos, Int.sign_eq_one_of_pos (by omega)]

/-! ### DIV and MOD (R190, R191) -/

/-- Within the invariant both results of a division fit, so a nonzero divisor always ends in the write. -/
theorem execDiv_wrote {s : State} (h : s.Inv) {rd rd2 : Reg} (hne : rd ≠ rd2) (rs1 : Reg) {rs2 : Reg} (hb : s.value rs2 ≠ 0) :
    ∃ t, execDiv rd rd2 rs1 rs2 s = .next t ∧
      WroteTwo s t rd ((s.value rs1).fdiv (s.value rs2)) rd2 ((s.value rs1).fmod (s.value rs2)) := by
  rw [execDiv_eq rd rd2 rs1 hb]
  exact commitTwo_wrote hne (fits_fdiv h rs1 hb) (fits_fmod h _ hb)

theorem execDiv_of_zero {s : State} (rd rd2 rs1 : Reg) {rs2 : Reg} (hb : s.value rs2 = 0) :
    execDiv rd rd2 rs1 rs2 s = throwErr .divisionByZero s := if_pos hb

theorem execMod_of_zero {s : State} (rd rs1 : Reg) {rs2 : Reg} (hb : s.value rs2 = 0) :
    execMod rd rs1 rs2 s = throwErr .divisionByZero s := if_pos hb

/-- Settles O37: the two clauses are the two ways the test of the divisor can go, and the results of a division always fit. -/
theorem divIsFloored : Obligations.DivIsFloored := by
  refine ⟨fun rd rs1 rs2 => decode_encode_of_not_wf (i := .div rd rd rs1 rs2) (by simp [Instr.wf]), fun rd rd2 rs1 rs2 hne =>
    ⟨decodeOfEncode (.div rd rd2 rs1 rs2) (decide_eq_true hne), fun s h => ⟨fun hb => ?_, fun hb => ?_⟩⟩⟩
  · rw [sub_floor_mul_eq_fmod _ hb, floor_div_eq_fdiv _ hb]
    exact execDiv_wrote h hne rs1 hb
  · rw [exec, execDiv_of_zero rd rd2 rs1 hb]
    exact throwErr_raised _ s

/-- Settles O39: the two clauses are the two ways the test of the divisor can go, and a remainder always fits. -/
theorem modIsFloored : Obligations.ModIsFloored := by
  refine fun rd rs1 rs2 => ⟨decodeOfEncode (.mod rd rs1 rs2) rfl, fun s h => ⟨fun hb => ?_, fun hb => ?_⟩⟩
  · rw [sub_floor_mul_eq_fmod _ hb, exec, execMod_eq rd rs1 hb]
    exact commit_wrote_value rd (fits_fmod h _ hb)
  · rw [exec, execMod_of_zero rd rs1 hb]
    exact throwErr_raised _ s

/-! ### The division law (R192, R193) -/

/-- Each of the three multipliers is the same write of the product. -/
theorem exec_multiplier_eq {s : State} (h : s.Inv) {p q b : Reg} {m : Instr}
    (hm : m = .muls p q b ∨ m = .mulk p q b ∨ m = .mult3 p q b) : exec m s = commit p (s.value q * s.value b) s := by
  obtain rfl | rfl | rfl := hm
  · exact execMuls_eq h p q b
  · exact execMulk_eq h p q b
  · exact execMult3_eq h p q b

/-- A multiplier and then `ADD` leave `x[q]·x[b] + x[r]` in `x[p]`, if the product and the sum fit. -/
theorem multiplier_then_add {s : State} (h : s.Inv) {p q b r : Reg} (hpr : p ≠ r) (hprod : Fits s (s.value q * s.value b))
    (hsum : Fits s (s.value q * s.value b + s.value r)) {m : Instr} (hm : m = .muls p q b ∨ m = .mulk p q b ∨ m = .mult3 p q b) :
    ∃ u v, exec m s = .next u ∧ exec (.add p p r) u = .next v ∧ v.value p = s.value q * s.value b + s.value r := by
  obtain ⟨u, hmul, hp, -, hother, -, -, hcfg, -⟩ := commit_wrote_value p hprod
  have hvalues : u.value p + u.value r = s.value q * s.value b + s.value r := by
    rw [hp, value_eq u r, hother r hpr.symm, ← value_eq]
  have hfits : Fits u (u.value p + u.value r) := by
    rwa [hvalues, Fits, hcfg]
  obtain ⟨v, hadd, hv, -⟩ := commit_wrote_value p hfits
  exact ⟨u, v, (exec_multiplier_eq h hm).trans hmul, (execAdd_eq p p r u).trans hadd, hv.trans hvalues⟩

/-- Settles O38: the division writes the floored quotient and remainder beside the divisor, so the multiplier and `ADD` that follow
compute the dividend, which fits as `x[a]` held it. -/
theorem divisionLaw : Obligations.DivisionLaw := by
  intro s q r p a b h hqr hqb hrb hpr hb
  obtain ⟨t, hdiv, hq, -, hr, -, hother, -, -, hcfg, -⟩ := execDiv_wrote h hqr a hb
  have hdivisor : t.value b = s.value b := by
    rw [value_eq t, hother b hqb.symm hrb.symm, ← value_eq]
  have hlaw : t.value q * s.value b + t.value r = s.value a := by
    rw [hq, hr, mul_comm, Int.mul_fdiv_add_fmod]
  refine ⟨t, hdiv, hlaw.symm, ?_, ?_, fun hprod m hm => ?_⟩
  · rw [hr]; exact natAbs_fmod_lt _ hb
  · rw [hr]; exact fmod_eq_zero_or_sign_eq _ hb
  · have hinv : t.Inv := by
      rw [execDiv_eq q r a hb] at hdiv
      exact inv_commitTwo h hdiv
    have hsum : Fits t (t.value q * t.value b + t.value r) := by
      rw [hdivisor, hlaw, Fits, hcfg]
      exact fits_value h a
    obtain ⟨u, v, hmul, hadd, hv⟩ := multiplier_then_add hinv hpr (by rwa [hdivisor, Fits, hcfg]) hsum hm
    exact ⟨u, v, hmul, hadd, by rw [hv, hdivisor, hlaw]⟩

end Sys2Proof.Machine
end

section
/-! Montgomery arithmetic (45_montgomery.md R210, R214): MONTMUL writes the unique Montgomery product and MODEXP the modular power with
`R² mod N`, both below the modulus and so within its register; outside the domain both raise BadInputData. -/

namespace Sys2Proof.Machine

/-! ### The Montgomery product over the integers (R210) -/

/-- The `R` of R210 is the power of two that the length of the modulus gives. -/
theorem natCast_montR_value {s : State} (h : s.Inv) (r : Reg) : (montR (s.value r).natAbs : Int) = 2 ^ (64 * s.len r) := by
  rw [montR, len_eq_length_toLimbs h, pow_mul]
  push_cast
  rfl

/-- A Montgomery product of naturals is one of integers. -/
theorem mul_montR_modEq_intCast_iff {N Z X Y : Nat} :
    (Z : Int) * montR N ≡ X * Y [ZMOD N] ↔ Z * montR N ≡ X * Y [MOD N] := by
  rw [← Int.natCast_modEq_iff, Nat.cast_mul, Nat.cast_mul]

/-- In the domain of R210 `redc` is an integer in `[0, N)` congruent as R210 says, and the only one. -/
theorem redc_isUnique_int {N X Y : Nat} (hN : N % 2 = 1) (hX : X < N) (hY : Y < N) :
    (redc N X Y : Int) < N ∧ (redc N X Y : Int) * montR N ≡ X * Y [ZMOD N] ∧
      ∀ Z : Int, 0 ≤ Z → Z < N → Z * montR N ≡ X * Y [ZMOD N] → Z = redc N X Y := by
  obtain ⟨hmod, hlt⟩ := redc_spec hN (hX.trans (lt_montR N)) hY.le
  refine ⟨Int.ofNat_lt.2 hlt, mul_montR_modEq_intCast_iff.2 hmod, fun Z hZ0 hZlt hZ => ?_⟩
  lift Z to Nat using hZ0
  exact congrArg Nat.cast (mont_unique hN (mul_montR_modEq_intCast_iff.1 hZ) hmod (Int.ofNat_lt.1 hZlt) hlt)

/-! ### MONTMUL (R210) -/

theorem execMontmul_eq {s : State} (rd : Reg) {rs1 rs2 rs3 : Reg} {X Y N : Nat} (hX : s.value rs1 = X) (hY : s.value rs2 = Y)
    (hN : s.value rs3 = N) (hodd : N % 2 = 1) (hXN : X < N) (hYN : Y < N) :
    execMontmul rd rs1 rs2 rs3 s = commit rd (redc N X Y) s := by
  simp only [execMontmul, hX, hY, hN, Int.toNat_natCast]
  rw [if_neg (by omega), if_neg (by omega), if_neg (by omega)]

theorem execMontmul_of_not_domain {s : State} (rd : Reg) {rs1 rs2 rs3 : Reg}
    (h : s.value rs3 ≤ 0 ∨ s.value rs3 % 2 = 0 ∨ s.value rs1 < 0 ∨ s.value rs1 ≥ s.value rs3 ∨ s.value rs2 < 0 ∨
      s.value rs2 ≥ s.value rs3) :
    execMontmul rd rs1 rs2 rs3 s = throwErr .badInputData s := by
  simp only [execMontmul]
  split_ifs with hN hX hY
  · rfl
  · rfl
  · rfl
  · exact absurd h (by omega)

/-- Settles O40: in the domain `redc` is the unique product and fits beside its modulus; outside it one of the three tests raises. -/
theorem montmulIsMontgomeryProduct : Obligations.MontmulIsMontgomeryProduct := by
  refine fun rd rs1 rs2 rs3 => ⟨decodeOfEncode (.montmul rd rs1 rs2 rs3) rfl, fun s X Y N R h hX hY hN hR => ⟨?_, fun hout => ?_⟩⟩
  · rintro ⟨hpos, hodd, hX0, hXN, hY0, hYN⟩
    lift X to Nat using hX0
    lift Y to Nat using hY0
    lift N to Nat using hpos.le
    have hRN : R = montR N := by rw [hR, ← natCast_montR_value h, ← hN, Int.natAbs_natCast]
    obtain ⟨hlt, hmod, hunique⟩ := redc_isUnique_int (N := N) (X := X) (Y := Y) (by omega) (by omega) (by omega)
    have hfits : Fits s (redc N X Y) := fits_of_natAbs_le (fits_value h rs3) (by omega)
    obtain ⟨t, hexec, hwrote⟩ := commit_wrote_value rd hfits
    rw [hRN, exec, execMontmul_eq rd hX.symm hY.symm hN.symm (by omega) (by omega) (by omega)]
    exact ⟨t, _, hexec, hwrote, Int.natCast_nonneg _, hlt, hmod, hunique⟩
  · subst hX hY hN
    rw [exec, execMontmul_of_not_domain rd hout]
    exact throwErr_raised _ s

/-! ### MODEXP (R214) -/

theorem execModexp_of_not_domain {s : State} (rd rd2 rs1 : Reg) {rs2 rs3 : Reg}
    (h : s.value rs3 ≤ 0 ∨ s.value rs3 % 2 = 0 ∨ s.value rs2 < 0) :
    execModexp rd rd2 rs1 rs2 rs3 s = throwErr .badInputData s := by
  simp only [execModexp]
  split_ifs with hN he
  · rfl
  · rfl
  · exact absurd h (by omega)

/-- Settles O41: in the domain the core computes two residues, which fit beside their modulus; outside it one of the two tests raises. -/
theorem modexpIsModularPower : Obligations.ModexpIsModularPower := by
  refine ⟨fun rd rs1 rs2 rs3 => decode_encode_of_not_wf (i := .modexp rd rd rs1 rs2 rs3) (by simp [Instr.wf]),
    fun rd rd2 rs1 rs2 rs3 hne => ⟨decodeOfEncode (.modexp rd rd2 rs1 rs2 rs3) (decide_eq_true hne), ?_⟩⟩
  rintro s b e N h rfl rfl rfl
  constructor
  · rintro ⟨hpos, hodd, he⟩
    rw [exec, execModexp_eq rd rd2 rs1 rs2 rs3 hpos hodd he, ← len_eq_length_toLimbs h]
    exact commitTwo_wrote hne (fits_emod h _ hpos) (fits_emod h _ hpos)
  · intro hout
    rw [exec, execModexp_of_not_domain rd rd2 rs1 hout]
    exact throwErr_raised _ s

end Sys2Proof.Machine
end

section
/-! The greatest common divisor (46_gcd.md R230): GCD writes `Int.gcd` of its operands, which divides a nonzero one and so always fits. -/

namespace Sys2Proof.Machine

theorem exec_gcd_wrote {s : State} (h : s.Inv) (rd rs1 rs2 : Reg) :
    ∃ t, exec (.gcd rd rs1 rs2) s = .next t ∧ Wrote s t rd (Int.gcd (s.value rs1) (s.value rs2)) := by
  rw [exec, execGcd_eq]
  exact commit_wrote_value rd (fits_gcd h rs1 rs2)

/-- Settles O42: the magnitude GCD that Lehmer's loop computes is `Int.gcd`, which has each property R230 states. -/
theorem gcdIsGreatestCommonDivisor : Obligations.GcdIsGreatestCommonDivisor := by
  refine fun rd rs1 rs2 => ⟨decodeOfEncode (.gcd rd rs1 rs2) rfl, ?_⟩
  rintro s a b h rfl rfl
  obtain ⟨t, hexec, hwrote⟩ := exec_gcd_wrote h rd rs1 rs2
  refine ⟨t, _, hexec, hwrote, Int.natCast_nonneg _, Int.gcd_dvd_left .., Int.gcd_dvd_right .., fun d => Int.dvd_coe_gcd,
    fun hb => ?_, fun ha => ?_, ?_⟩
  · rw [hb, Int.gcd_zero_right]
  · rw [ha, Int.gcd_zero_left]
  · rw [Int.natCast_eq_zero, Int.gcd_eq_zero_iff]

end Sys2Proof.Machine
end

section
/-! Exceptions and reset (60_exceptions.md R246, R249, R254; 70_reset_and_hazards.md R270): what a raise and a success do to the machine, for
every word, the errors of each command, and a reset at the port. -/

namespace Sys2Proof.Machine

/-! ### A reset at the port (R270, R32) -/

/-- Settles O3: the step is the reset, which leaves every register and `STATUS` as R32 says. -/
theorem resetEvent : Obligations.ResetEvent :=
  fun s rest h => ⟨_, step_of_rst h, reg_resetTo s rest, rfl, word_statusReset, rfl, rfl, rfl⟩

/-! ### A raise and a success (R246, R249) -/

theorem raise_raised (e : Err) (s : State) : Raised s (raise e s) e := ⟨fun _ => rfl, rfl, rfl, rfl, rfl, rfl, rfl⟩

/-- A response with a nonzero error code comes with the whole update of a raise. -/
theorem Ends.raised {i : Instr} {s t : State} {ρ : Response} (h : Ends i s t) (hd : ¬ InexactDiv3 i s) (hrsp : t.rsp = some ρ)
    (herr : ρ.err ≠ .none) : Raised s t ρ.err := by
  cases h with
  | failed e =>
    obtain rfl : ⟨e, 0⟩ = ρ := Option.some.inj hrsp
    exact raise_raised e s
  | undefined rd rs1 hi hu => exact absurd ⟨rd, rs1, hi, hu⟩ hd
  | answered | wrote | wroteTwo | compared | readStatus | cleared =>
    cases hrsp
    exact absurd rfl herr

/-- A success of a command that is neither `RDST` nor `CLRF` clears `LASTERR` and leaves the record of the first error. -/
theorem Ends.record_of_err_none {i : Instr} {s t : State} {ρ : Response} (h : Ends i s t) (hd : ¬ InexactDiv3 i s)
    (hrsp : t.rsp = some ρ) (herr : ρ.err = .none) (hr : i ≠ .rdst) (hc : i ≠ .clrf) :
    t.status.lastErr = .none ∧ t.status.fault = s.status.fault ∧ t.status.firstErr = s.status.firstErr := by
  cases h with
  | failed e he =>
    obtain rfl : ⟨e, 0⟩ = ρ := Option.some.inj hrsp
    obtain rfl : e = .none := herr
    simp at he
  | undefined rd rs1 hi hu => exact absurd ⟨rd, rs1, hi, hu⟩ hd
  | readStatus hi => exact absurd hi hr
  | cleared hi => exact absurd hi hc
  | answered | wrote | wroteTwo | compared => exact ⟨rfl, rfl, rfl⟩

theorem exec_clrf_status {s t : State} (h : exec .clrf s = .next t) : t.status = ⟨.none, false, .none, s.status.cmp⟩ := by
  cases h
  rfl

theorem exec_rdst_unchanged {s t : State} (h : exec .rdst s = .next t) : t.status = s.status ∧ SameRegs s t := by
  cases h
  exact ⟨rfl, fun _ => rfl⟩

/-- Settles O44: an illegal word is a raise; a command is a raise or a success by its end, and `CLRF` and `RDST` do what they do. -/
theorem statusUpdate : Obligations.StatusUpdate := by
  intro s w hd
  obtain ⟨i, t, hdec, hexec, hrun, hends⟩ | ⟨hill, hrun⟩ := runWord_cases w s
  · have hexact := hd i hdec
    obtain ⟨ρ, hrsp, hres⟩ := hends.res_zero_or hexact
    refine ⟨t, ρ, hrun, hrsp, hends.raised hexact hrsp, ?_⟩
    rw [hdec]
    refine ⟨fun herr hr hc => hends.record_of_err_none hexact hrsp herr (fun h => hr (h ▸ rfl)) (fun h => hc (h ▸ rfl)), ?_, ?_, ?_⟩
    · rintro ⟨⟩
      exact exec_clrf_status hexec
    · rintro ⟨⟩
      exact exec_rdst_unchanged hexec
    · rintro i ⟨⟩ hset
      exact hres.resolve_right (by simp [hset])
  · exact ⟨_, _, hrun, raise_rsp _ s, fun _ => raise_raised _ s, nofun, fun h => absurd h (hill _), fun h => absurd h (hill _),
      fun i h => absurd h (hill i)⟩

/-! ### The table of errors (R254) -/

/-- The result is a next state whose response is not `AllocationFailed`: what was to be written found room. -/
def FindsRoom (r : Result) : Prop := ∃ t ρ, r = .next t ∧ t.rsp = some ρ ∧ ρ.err ≠ .allocationFailed

section
variable {s : State}

theorem FindsRoom.of_wrote {r : Result} {rd : Reg} {v : Int} (h : ∃ t, r = .next t ∧ Wrote s t rd v) : FindsRoom r := by
  obtain ⟨t, hr, -, -, -, -, hrsp, -⟩ := h
  exact ⟨t, _, hr, hrsp, nofun⟩

theorem FindsRoom.of_raised {r : Result} {e : Err} (h : ∃ t, r = .next t ∧ Raised s t e) (he : e ≠ .allocationFailed) : FindsRoom r := by
  obtain ⟨t, hr, -, -, hrsp, -⟩ := h
  exact ⟨t, _, hr, hrsp, he⟩

theorem FindsRoom.commit {v : Int} (rd : Reg) (hv : Fits s v) : FindsRoom (commit rd v s) := .of_wrote (commit_wrote_value rd hv)

theorem FindsRoom.commitTwo {v v2 : Int} (rd rd2 : Reg) (hv : Fits s v) (hv2 : Fits s v2) : FindsRoom (commitTwo rd v rd2 v2 s) := by
  rw [Machine.commitTwo, (fits_iff s v).2 hv, (fits_iff s v2).2 hv2]
  exact ⟨_, _, rfl, rfl, nofun⟩

theorem FindsRoom.ne_raise {r : Result} (h : FindsRoom r) : r ≠ .next (raise .allocationFailed s) := by
  rintro rfl
  obtain ⟨t, ρ, ⟨⟩, hrsp, hne⟩ := h
  obtain rfl : ⟨.allocationFailed, 0⟩ = ρ := Option.some.inj hrsp
  exact hne rfl

end

/-- The results of a division fit, also where both destinations are one register. -/
theorem exec_div_findsRoom {s : State} (h : s.Inv) (rd rd2 rs1 rs2 : Reg) : FindsRoom (exec (.div rd rd2 rs1 rs2) s) := by
  rw [exec]
  by_cases hb : s.value rs2 = 0
  · rw [execDiv_of_zero rd rd2 rs1 hb]
    exact .of_raised (throwErr_raised _ s) nofun
  · rw [execDiv_eq rd rd2 rs1 hb]
    exact .commitTwo rd rd2 (fits_fdiv h rs1 hb) (fits_fmod h _ hb)

theorem exec_mod_findsRoom {s : State} (h : s.Inv) (rd rs1 rs2 : Reg) : FindsRoom (exec (.mod rd rs1 rs2) s) := by
  obtain ⟨hnonzero, hzero⟩ := (modIsFloored rd rs1 rs2).2 s h
  by_cases hb : s.value rs2 = 0
  · exact .of_raised (hzero hb) nofun
  · exact .of_wrote (hnonzero hb)

/-- The Montgomery product is below the modulus; outside the domain the error is another one. -/
theorem exec_montmul_findsRoom {s : State} (h : s.Inv) (rd rs1 rs2 rs3 : Reg) : FindsRoom (exec (.montmul rd rs1 rs2 rs3) s) := by
  obtain ⟨hin, hout⟩ := (montmulIsMontgomeryProduct rd rs1 rs2 rs3).2 s _ _ _ _ h rfl rfl rfl rfl
  by_cases hdom : 0 < s.value rs3 ∧ s.value rs3 % 2 = 1 ∧ 0 ≤ s.value rs1 ∧ s.value rs1 < s.value rs3 ∧ 0 ≤ s.value rs2 ∧
      s.value rs2 < s.value rs3
  · obtain ⟨t, Z, hexec, hwrote, -⟩ := hin hdom
    exact .of_wrote ⟨t, hexec, hwrote⟩
  · exact .of_raised (hout (by omega)) nofun

/-- Both residues are below the modulus, also where both destinations are one register; outside the domain the error is another one. -/
theorem exec_modexp_findsRoom {s : State} (h : s.Inv) (rd rd2 rs1 rs2 rs3 : Reg) :
    FindsRoom (exec (.modexp rd rd2 rs1 rs2 rs3) s) := by
  rw [exec]
  by_cases hdom : 0 < s.value rs3 ∧ s.value rs3 % 2 = 1 ∧ 0 ≤ s.value rs2
  · obtain ⟨hpos, hodd, he⟩ := hdom
    rw [execModexp_eq rd rd2 rs1 rs2 rs3 hpos hodd he]
    exact .commitTwo rd rd2 (fits_emod h _ hpos) (fits_emod h _ hpos)
  · rw [execModexp_of_not_domain rd rd2 rs1 (by omega)]
    exact .of_raised (throwErr_raised _ s) nofun

/-- Within the invariant a command that writes and has no `AllocationFailed` in its row of R254 finds room: its result is bounded by a
register it reads, by one limb, or is zero. -/
theorem exec_findsRoom {i : Instr} {s : State} (h : s.Inv) (hd : ¬ InexactDiv3 i s) (hw : i.destinations ≠ [])
    (hi : .allocationFailed ∉ mayRaise i) : FindsRoom (exec i s) := by
  cases i with
  | nop | rdl | rdlen | rdsgn | rdst | clrf | bitlen | cmp => exact absurd rfl hw
  | pushl | add | sub | pow2 | muls | mulk | mult3 => exact absurd (List.mem_singleton.2 rfl) hi
  | clr rd => exact .commit rd (fits_zero s)
  | copy rd rs1 => exact .commit rd (fits_value h rs1)
  | ldi rd => exact .commit rd (fits_scalar h s.arg)
  | neg rd rs1 => exact .commit rd (fits_of_natAbs_le (fits_value h rs1) (Int.natAbs_neg _).le)
  | shr rd rs1 => exact .of_wrote ((shrShiftsMagnitude rd rs1).2 s h)
  | div3 rd rs1 =>
    have hdvd : (3 : Int) ∣ s.value rs1 := by
      by_contra hndvd
      exact hd ⟨rd, rs1, rfl, hndvd⟩
    obtain ⟨q, hq⟩ := hdvd
    exact .of_wrote ((div3OfMultiple rd rs1).2 s q h hq)
  | div rd rd2 rs1 rs2 => exact exec_div_findsRoom h rd rd2 rs1 rs2
  | mod rd rs1 rs2 => exact exec_mod_findsRoom h rd rs1 rs2
  | montmul rd rs1 rs2 rs3 => exact exec_montmul_findsRoom h rd rs1 rs2 rs3
  | modexp rd rd2 rs1 rs2 rs3 => exact exec_modexp_findsRoom h rd rd2 rs1 rs2 rs3
  | gcd rd rs1 rs2 => exact .of_wrote (exec_gcd_wrote h rd rs1 rs2)

/-- Settles O50, by the end of the command: a failure is one of its row, or a capacity failure, which a command without it in its row
cannot have. -/
theorem errorTable : Obligations.ErrorTable := by
  intro i s h hd
  obtain ⟨t, hexec, hends⟩ := exec_ends i s
  cases hends with
  | failed e _ hi =>
    refine ⟨_, _, hexec, raise_rsp e s, .inr ?_⟩
    obtain hrow | ⟨rfl, hw⟩ := hi
    · exact hrow
    · by_contra hrow
      exact (exec_findsRoom h hd hw hrow).ne_raise hexec
  | undefined rd rs1 hi hu => exact absurd ⟨rd, rs1, hi, hu⟩ hd
  | answered | wrote | wroteTwo | compared | readStatus | cleared => exact ⟨_, _, hexec, rfl, .inl rfl⟩

end Sys2Proof.Machine
end
